-- ==== Sys2Proof/Word.lean ====
section
/-! DEFINITION. The words the block moves: the 8-bit byte of both streams (20_memory.md R43), the 7-bit digit a byte
carries (30_encoding.md R60) and the 9-bit Decoder token (30_encoding.md R67). Everything else is an unsigned natural
(00_scope.md, "Numbers"). -/

namespace Sys2Proof

/-- One byte of a stream (R43, R60). -/
abbrev Byte := BitVec 8

/-- One payload digit, 0 to 127 (R60). -/
abbrev Digit := BitVec 7

/-- One Decoder input token, `tok[8:0]` (R67). -/
abbrev Token := BitVec 9

end Sys2Proof
end

