-- ==== Sys2Proof/Config.lean ====
section
/-! DEFINITION. What an instance of the block fixes (the one open parameter `W`, 00_scope.md R5) and the free values
(the three Encoder fields that a RESET leaves unspecified, 10_state.md R36). -/

namespace Sys2Proof

/-- The configuration of one instance. R5 admits every width `W >= 7` and asks a model to refuse `W < 7`; U2 refuses to
BUILD such an instance. So the width is held as what it has above seven: every value is an admitted instance and no
other instance exists. DESIGN CHOICE, notes/assumptions/1.md. -/
structure Config where
  /-- `W - 7`. -/
  surplus : Nat
deriving DecidableEq, Repr

/-- The width `W` of the Value (R5). -/
def Config.W (c : Config) : Nat := c.surplus + 7

/-- The instance of width 8, 16, 32 or 64, the widths the source shows (R5), and of 7, the smallest admitted. -/
def Config.w7 : Config := ⟨0⟩
def Config.w8 : Config := ⟨1⟩
def Config.w16 : Config := ⟨9⟩
def Config.w32 : Config := ⟨25⟩
def Config.w64 : Config := ⟨57⟩

/-- What `E.val` holds after the `n`-th RESET step (R36: unspecified). A FREE VALUE: nothing constrains it.
notes/assumptions/4.md. -/
opaque Config.freeVal : Nat → Nat

/-- What `E.idx` holds after the `n`-th RESET step (R36: unspecified). A FREE VALUE. notes/assumptions/4.md. -/
opaque Config.freeIdx : Nat → Nat

/-- What `E.started` holds after the `n`-th RESET step (R36: unspecified). A FREE VALUE. notes/assumptions/4.md. -/
opaque Config.freeStarted : Nat → Bool

end Sys2Proof
end

