-- ==== Sys2Proof/Syntax.lean ====
section
/-! DEFINITION. The operations of the block: one constructor per row of spec/opcode_table.json (30_encoding.md R72). -/

namespace Sys2Proof

/-- One operation of the block. -/
inductive Instr where
  /-- `maxBytes(W)`, the operation-level call (40_widthlimits.md R80). -/
  | maxBytes (w : Nat)
  /-- `encode(v, W)`, the operation-level call (41_encoder.md R90). -/
  | encode (v w : Nat)
  /-- `decode(bytes, W)`, the operation-level call (42_decoder.md R110). -/
  | decode (bytes : List Byte) (w : Nat)
  /-- `ENC.START`: the command port's one command, operand `e_value` (R92, R68). -/
  | encStart (v : Nat)
  /-- `ENC.DIGIT`: an internal step of ENC (R93). -/
  | encDigit
  /-- `ENC.TERM`: an internal step of ENC (R94). -/
  | encTerm
  /-- `DEC.CONT`: a token with a continuation byte, payload `p` (R112). -/
  | decCont (p : Digit)
  /-- `DEC.TERM`: a token with a terminal byte, payload `p` (R113). -/
  | decTerm (p : Digit)
  /-- `DEC.END`: the end-of-sequence token (R114); its low 8 bits are ignored (R67). -/
  | decEnd
  /-- `RESET`: the `rst` pin (70_reset_and_hazards.md R160). -/
  | reset
  /-- `CONT`: the wire byte `1ppppppp` (30_encoding.md R61), as the Decoder meets it. -/
  | cont (p : Digit)
  /-- `TERM`: the wire byte `0ppppppp` (30_encoding.md R61), as the Decoder meets it. -/
  | term (p : Digit)
deriving DecidableEq, Repr

/-- The three operation-level calls (R2, R10), which have no bit pattern. -/
inductive Call where
  | maxBytes (w : Nat)
  | encode (v w : Nat)
  | decode (bytes : List Byte) (w : Nat)
deriving DecidableEq, Repr

end Sys2Proof
end

