-- ==== Sys2Proof/WellFormed.lean ====
section
/-! DEFINITION. Which operations can be presented to an instance of width `W`: a width argument is at least 7 (R5) and
a Value fits its width (R90, R68; 93_implementation_defined.md U1, U2). Everything else is well-formed by its type. -/

namespace Sys2Proof

/-- The operation can be presented to an instance of width `W`. -/
def Instr.wf (W : Nat) : Instr → Bool
  | .maxBytes w => decide (7 ≤ w)
  | .encode v w => decide (7 ≤ w) && decide (v < 2 ^ w)
  | .decode _ w => decide (7 ≤ w)
  | .encStart v => decide (v < 2 ^ W)
  | .encDigit => true
  | .encTerm => true
  | .decCont _ => true
  | .decTerm _ => true
  | .decEnd => true
  | .reset => true
  | .cont _ => true
  | .term _ => true

end Sys2Proof
end

