-- ==== Sys2Proof/Decode.lean ====
section
/-! DEFINITION. The block decodes no instruction stream (30_encoding.md). What it decodes is what stands on each of its
input ports: the `rst` pin, the command port, the 9-bit token port, and a byte of the wire format. `decodeWord` reads a
port's bits, `encodeWord` writes them, from the rows of spec/opcode_table.json (R60, R61, R67, R68, R72). The calls and
the Encoder's internal steps have no bit pattern (R72). -/

namespace Sys2Proof

/-- What is driven on one input port. -/
inductive PortWord where
  /-- The pin `rst` (R160). -/
  | rst (pin : BitVec 1)
  /-- The command port: the strobe `e_start` and the number on `e_value[W-1:0]` (R68). -/
  | command (eStart : BitVec 1) (eValue : Nat)
  /-- The token port while `d_valid = 1`: `tok[8:0]` (R67). -/
  | token (tok : Token)
  /-- One byte of the wire format (R60). -/
  | wire (b : Byte)
deriving DecidableEq, Repr

/-- Why a port's bits name no operation. -/
inductive DecodeError where
  /-- `rst = 0`: no reset is requested. Safe: nothing is presented. -/
  | resetPinLow
  /-- `e_start = 0`: no command is present. Safe: nothing is presented. -/
  | startStrobeLow
deriving DecidableEq, Repr

/-- `b[6:0]`, the payload of a byte: the source's `byte & 0x7F` (R61). -/
def bytePayload (b : Byte) : Digit := b.extractLsb' 0 7

/-- `b[7]`, the continuation flag of a byte: the source's `byte & 0x80 != 0` (R61). -/
def byteContinues (b : Byte) : Bool := b.getLsbD 7

/-- `tok[8]`, the port `d_end` (R67). -/
def tokenIsEnd (t : Token) : Bool := t.getLsbD 8

/-- `tok[7:0]`, the port `d_byte` (R67). -/
def tokenByte (t : Token) : Byte := t.extractLsb' 0 8

/-- The token port: test `tok[8]`, then `tok[7]` (R67, R72). Total: all 512 values are legal (R69). -/
def decodeToken (t : Token) : Instr :=
  if tokenIsEnd t then .decEnd
  else if byteContinues (tokenByte t) then .decCont (bytePayload (tokenByte t))
  else .decTerm (bytePayload (tokenByte t))

/-- The wire format: the two byte classes. Total: all 256 values are legal (R61, R69). -/
def decodeByte (b : Byte) : Instr :=
  if byteContinues b then .cont (bytePayload b) else .term (bytePayload b)

/-- The decoder, one case per port. -/
def decodeWord : PortWord → Except DecodeError Instr
  | .rst pin => if pin = 1#1 then .ok .reset else .error .resetPinLow
  | .command eStart v => if eStart = 1#1 then .ok (.encStart v) else .error .startStrobeLow
  | .token t => .ok (decodeToken t)
  | .wire b => .ok (decodeByte b)

/-- The bits of an operation on its port; `none` where the table gives it no bit pattern (R72). The ignored bits of
`DEC.END` are written 0 (R67; notes/assumptions/22.md). -/
def encodeWord : Instr → Option PortWord
  | .maxBytes _ => none
  | .encode _ _ => none
  | .decode _ _ => none
  | .encStart v => some (.command 1#1 v)
  | .encDigit => none
  | .encTerm => none
  | .decCont p => some (.token (0b01#2 ++ p))
  | .decTerm p => some (.token (0b00#2 ++ p))
  | .decEnd => some (.token 0x100#9)
  | .reset => some (.rst 1#1)
  | .cont p => some (.wire (1#1 ++ p))
  | .term p => some (.wire (0#1 ++ p))

/-- One row of spec/opcode_table.json: the width of its pattern, its match and its mask. -/
structure OpcodeRow where
  width : Nat
  pattern : Nat
  mask : Nat
deriving DecidableEq, Repr

/-- The operation's row of spec/opcode_table.json, letter for letter. -/
def Instr.row : Instr → OpcodeRow
  | .maxBytes _ => ⟨0, 0x0, 0x0⟩
  | .encode _ _ => ⟨0, 0x0, 0x0⟩
  | .decode _ _ => ⟨0, 0x0, 0x0⟩
  | .encStart _ => ⟨1, 0x1, 0x1⟩
  | .encDigit => ⟨0, 0x0, 0x0⟩
  | .encTerm => ⟨0, 0x0, 0x0⟩
  | .decCont _ => ⟨9, 0x080, 0x180⟩
  | .decTerm _ => ⟨9, 0x000, 0x180⟩
  | .decEnd => ⟨9, 0x100, 0x100⟩
  | .reset => ⟨1, 0x1, 0x1⟩
  | .cont _ => ⟨8, 0x80, 0x80⟩
  | .term _ => ⟨8, 0x00, 0x80⟩

/-- The bits of a port as one number, bit 0 the least significant, as the table numbers them (the operand of the
command port stands on a port of its own, outside the row's one bit). -/
def PortWord.bits : PortWord → Nat
  | .rst pin => pin.toNat
  | .command eStart _ => eStart.toNat
  | .token t => t.toNat
  | .wire b => b.toNat

/-- How many bits the port has. -/
def PortWord.width : PortWord → Nat
  | .rst _ => 1
  | .command _ _ => 1
  | .token _ => 9
  | .wire _ => 8

/-- The port a word of the opcode table stands on, told by its number of bits alone. 9 bits (2 whole bytes) are a
token and 8 bits a wire byte. The 1-bit rows `ENC.START` and `RESET` have the same bits on two different ports, and in
whole bytes they are the word 1, which is the wire byte `TERM 1` as well: the bits do not tell the port. The word 1 is
read as the `rst` pin, since RESET takes precedence over every other step offered at the same time (R160).
DESIGN CHOICE, notes/assumptions/13.md. -/
def tableWordPort (nbits w : Nat) : Option PortWord :=
  if nbits = 1 ∨ nbits = 8 then
    if w = 1 then some (.rst 1#1)
    else if nbits = 8 ∧ w < 2 ^ 8 then some (.wire (BitVec.ofNat 8 w))
    else none
  else if nbits = 9 ∨ nbits = 16 then
    if w < 2 ^ 9 then some (.token (BitVec.ofNat 9 w)) else none
  else none

/-- What the decoder reads from an instruction whose bits are `w`, numbered as the opcode table numbers them. -/
def decodeTableWord (nbits w : Nat) : Option Instr :=
  match tableWordPort nbits w with
  | some p =>
    match decodeWord p with
    | .ok i => some i
    | .error _ => none
  | none => none

end Sys2Proof
end

