-- ==== Sys2Proof/Machine/WidthLimits.lean ====
section
/-! DEFINITION. WidthLimits and the other constants of an instance, as functions of the width (00_scope.md R6, R7, R8;
40_widthlimits.md R80, R83; 10_state.md R20, R22). -/

namespace Sys2Proof.Machine

/-- `M = maxBytes(W) = floor(W/7) + 1` (R80). -/
def maxBytes (w : Nat) : Nat := w / 7 + 1

/-- `MAXV = 2^W - 1`, the largest Value (R7). -/
def maxValue (w : Nat) : Nat := 2 ^ w - 1

/-- `LIM = MAXV >> 7`, the Decoder's bound before the shift (R8). -/
def lim (w : Nat) : Nat := maxValue w >>> 7

/-- `ceil(log2(n))`. -/
def clog2 (n : Nat) : Nat := if n ≤ 1 then 0 else Nat.log2 (n - 1) + 1

/-- The width of `E.idx`, `ceil(log2(M))` bits (R22). -/
def idxBits (w : Nat) : Nat := clog2 (maxBytes w)

/-- The width of the port `m_bytes`, `ceil(log2(M+1))` bits (R83). -/
def mBytesBits (w : Nat) : Nat := clog2 (maxBytes w + 1)

end Sys2Proof.Machine
end

