-- ==== Sys2Proof/Machine/State.lean ====
section
/-! DEFINITION. The state of one instance: the eight fields of 10_state.md R20 (units ENC and DEC), and beside them,
each marked as the model's own, the instance's configuration, what the host is about to present, and the observer's
record of emitted bytes and reported outcomes. Registers hold naturals, as the spec's own notation does (00_scope.md,
"Numbers"); that each stays inside its width is `State.Inv` of Safety.lean (notes/assumptions/17.md). -/

namespace Sys2Proof.Machine

open Sys2Proof

/-- The four phases of `D.st` (R27). -/
inductive Phase where
  /-- No byte of the current sequence has been consumed. -/
  | idle
  /-- The most recent byte had its continuation bit set. -/
  | cont
  /-- The terminal byte has been consumed and nothing after it yet. -/
  | term
  /-- An outcome has been reported before the sequence's `END`; tokens are discarded up to and including it. -/
  | drain
deriving DecidableEq, Repr

/-- The four error kinds, Decoder only (60_exceptions.md R140). -/
inductive ErrorKind where
  | emptyInput
  | unfinishedSequence
  | extraData
  | overflow
deriving DecidableEq, Repr

/-- What one Decoder sequence yields: `Ok v` or `Err k` (R140; 93_implementation_defined.md U5). -/
inductive DecOutcome where
  | ok (v : Nat)
  | err (k : ErrorKind)
deriving DecidableEq, Repr

/-- `D.res.status` (R28): the six codes ever written, by name (U5); their numbers are in Machine/Ports.lean. -/
inductive Status where
  | none
  | ok
  | emptyInput
  | unfinishedSequence
  | extraData
  | overflow
deriving DecidableEq, Repr

/-- The Encoder unit ENC (R20). -/
structure Enc where
  /-- `E.val`, `W` bits: the part of the Value not yet emitted (R21). -/
  val : Nat
  /-- `E.idx`, `ceil(log2(M))` bits: the digit position the next step handles (R22). -/
  idx : Nat
  /-- `E.started`, 1 bit: a byte has been emitted in the current operation (R23). -/
  started : Bool
  /-- `E.busy`, 1 bit: an encode operation is in progress (R24). -/
  busy : Bool
deriving DecidableEq, Repr

/-- The result register `D.res` (R28). -/
structure Res where
  /-- `D.res.status`, 3 bits. -/
  status : Status
  /-- `D.res.value`, `W` bits: the decoded Value when the status is OK, else 0. -/
  value : Nat
deriving DecidableEq, Repr

/-- The Decoder unit DEC (R20). -/
structure Dec where
  /-- `D.acc`, `W` bits: the accumulator (R26). -/
  acc : Nat
  /-- `D.st`, 2 bits: the parser phase (R27). -/
  st : Phase
  /-- `D.res` (R28). -/
  res : Res
deriving DecidableEq, Repr

/-- What is offered beside the `rst` pin at one step: at most one unit moves, since a step is one atomic transition of
ENC or of DEC (00_scope.md, glossary "Step"; R47). The choice of who moves is the schedule's (U10). -/
inductive Offer where
  /-- Nobody moves: time passes between events (R163). -/
  | idle
  /-- ENC may take the one internal step it has enabled (R73 `ENC.STEP`; R95). -/
  | encStep
  /-- The host presents the first of its pending `ENC.START` commands (R68). -/
  | command
  /-- The host presents a token with `d_valid = 1` (R67). -/
  | token (tok : Token)
  /-- A byte of the wire format arrives at the Decoder (R61; R73 `DEC.BYTE`). -/
  | wire (b : Byte)
  /-- An operation-level call (R10). -/
  | call (c : Call)
deriving DecidableEq, Repr

/-- One step's worth of input: the level of the pin `rst` and the step offered at the same time (R160). -/
structure Turn where
  rst : BitVec 1
  offer : Offer
deriving DecidableEq, Repr

/-- The host's side (not state of the block, R11 item 2): what it will present. notes/assumptions/6.md. -/
structure HostSide where
  /-- The schedule, the next step's turn first. -/
  sched : List Turn
  /-- The operands of the `ENC.START` commands not yet accepted, oldest first. A held command stays here (R164;
  notes/assumptions/8.md). -/
  cmds : List Nat
deriving DecidableEq, Repr

/-- What an operation-level call returned (R10). -/
inductive CallResult where
  | length (m : Nat)
  | encoded (bytes : List Byte)
  | decoded (o : DecOutcome)
deriving DecidableEq, Repr

/-- The observer's record (R20: outputs are events, not state of the block). notes/assumptions/7.md. -/
structure Seen where
  /-- The sink: every byte ENC has emitted, oldest first (R41). -/
  sink : List Byte
  /-- Every outcome DEC has reported, oldest first (R52). -/
  reports : List DecOutcome
  /-- `e_out_byte` where `e_out_valid = 1` in the step just taken, `none` where `e_out_valid = 0` (R52;
  notes/assumptions/21.md). -/
  eOut : Option Byte
  /-- `d_done` in the step just taken (R52). -/
  dDone : Bool
  /-- The caller's sink of the operation-level `encode` calls (R90). -/
  callSink : List Byte
  /-- What the last operation-level call returned (R10). -/
  call : Option CallResult
deriving DecidableEq, Repr

/-- The state. -/
structure State where
  /-- The instance's configuration; no step writes it (R5). The model's own field. -/
  cfg : Config
  /-- The four fields of ENC (R20). -/
  enc : Enc
  /-- The four fields of DEC (R20). -/
  dec : Dec
  /-- The host's side. The model's own field. -/
  host : HostSide
  /-- The observer's record. The model's own field. -/
  seen : Seen
  /-- How many RESET steps have drawn free values (R36). The model's own field; notes/assumptions/4.md. -/
  free : Nat
deriving DecidableEq, Repr

/-- The machine never stops with a fault: the four Decoder errors are outcomes (R140, R149), the Encoder and `maxBytes`
raise nothing (R146), and no address exists to be absent (R40). No constructor, so nobody raises one: safe. -/
inductive Fault where
deriving DecidableEq, Repr

/-- Why the model gives an operation no next state (notes/assumptions/11.md). -/
inductive Refusal where
  /-- Raised by exec's arm of an instruction that has no meaning yet. Safe: nothing is claimed of it. -/
  | notModelled (mnemonic : String)
  /-- Raised by the calls `maxBytes`, `encode`, `decode` given a width below 7, and by `State.build` for such an
  instance (R5, U2: "refuse"). Safe: nothing is claimed of such widths. -/
  | widthBelowSeven
  /-- Raised by the call `encode` and by `ENC.START` given a number that does not fit the width (U1: "refuse", it must
  not truncate, saturate or raise an error kind). Safe: the port has no way to carry such a number (R68). -/
  | valueTooWide
deriving DecidableEq, Repr

/-- The instance `c` right after reset (R36). `E.val`, `E.idx` and `E.started` are unspecified there; the model names
0, 0 and false (notes/assumptions/3.md). Nothing is presented and nothing has been emitted or reported. -/
def State.resetAt (c : Config) : State where
  cfg := c
  enc := { val := 0, idx := 0, started := false, busy := false }
  dec := { acc := 0, st := .idle, res := { status := .none, value := 0 } }
  host := { sched := [], cmds := [] }
  seen := { sink := [], reports := [], eOut := none, dDone := false, callSink := [], call := none }
  free := 0

/-- The machine right after reset. `W` is the spec's open parameter (D1); this instance has `W = 64`
(notes/assumptions/2.md). -/
def State.reset : State := State.resetAt Config.w64

/-- The instance of width `w` right after reset; `W < 7` is refused (R5, U2). -/
def State.build (w : Nat) : Except Refusal State :=
  if w < 7 then .error .widthBelowSeven else .ok (State.resetAt ⟨w - 7⟩)

end Sys2Proof.Machine
end

