-- ==== Sys2Proof/Machine/Operands.lean ====
section
/-! DEFINITION. Every operand form: the digit of a value at a position, the bytes that carry a digit, the accumulator
with a payload added (30_encoding.md R61, R66; 41_encoder.md R93, R94; 42_decoder.md R112). -/

namespace Sys2Proof.Machine

open Sys2Proof

/-- The weight of digit position `i`, `2^(7*i)` (R66; 90_conflicts.md C1). -/
def weight (i : Nat) : Nat := 2 ^ (7 * i)

/-- The digit at position `i` of what is left of the Value: `rem div weight` (R90, R93). -/
def topDigit (rem i : Nat) : Nat := rem / weight i

/-- What is left once that digit is emitted: `rem - d * weight` (R90, R93). -/
def afterDigit (rem i : Nat) : Nat := rem - topDigit rem i * weight i

/-- The non-terminal byte `0x80 | d` (R61, R93). A digit is at most 127 (R96); in states no run reaches it may not be,
and the byte is then the low 8 bits (notes/assumptions/15.md). -/
def contByte (d : Nat) : Byte := BitVec.ofNat 8 (0x80 ||| d)

/-- The terminal byte `rem[6:0]`, bit 7 clear (R61, R94). -/
def termByte (rem : Nat) : Byte := BitVec.ofNat 8 (rem % 128)

/-- `acc' = acc + p` (R110, R112, R113). -/
def addPayload (acc : Nat) (p : Digit) : Nat := acc + p.toNat

/-- `acc' << 7` (R110, R112). -/
def shiftDigit (acc : Nat) : Nat := acc <<< 7

/-- The low `w` bits of a number: what a `w`-bit register keeps of it (`trunc_N` of 00_scope.md). -/
def toWidth (w v : Nat) : Nat := v % 2 ^ w

end Sys2Proof.Machine
end

