-- ==== Sys2Proof/Machine/Flags.lean ====
section
/-! DEFINITION. The 1-bit conditions that steer a step (10_state.md R32): whether a digit position emits, and whether
the accumulator overflows. (The third, the continuation flag `byte[7]`, is `byteContinues` of Decode.lean; the fourth
and fifth, `E.started` and `E.busy`, are state.) -/

namespace Sys2Proof.Machine

/-- A digit position emits a byte unless the digit is 0 and no byte has been emitted yet (R93; 90_conflicts.md C2). -/
def digitEmits (d : Nat) (started : Bool) : Bool := d != 0 || started

/-- `acc' > LIM`, tested before the shift (R112, R144). -/
def overflows (w acc : Nat) : Bool := decide (lim w < acc)

end Sys2Proof.Machine
end

