-- ==== Sys2Proof/Machine/Codec.lean ====
section
/-! DEFINITION. The operation level: the pure functions `encode` (41_encoder.md R90) and `decode` (42_decoder.md R110).
(`maxBytes`, R80, is in Machine/WidthLimits.lean.) -/

namespace Sys2Proof.Machine

open Sys2Proof

/-- The loop of R90 over the digit positions `i, i-1, ..., 1`, then the terminal byte. -/
def encodeFrom : Nat → Nat → Bool → List Byte
  | 0, rem, _ => [termByte rem]
  | i + 1, rem, started =>
    if digitEmits (topDigit rem (i + 1)) started then
      contByte (topDigit rem (i + 1)) :: encodeFrom i (afterDigit rem (i + 1)) true
    else encodeFrom i rem started

/-- `encode(v, W)` (R90). -/
def opEncode (v w : Nat) : List Byte := encodeFrom (maxBytes w - 1) v false

/-- The loop of R110: one byte a pass, from the accumulator `acc`. -/
def decodeFrom (w : Nat) : Nat → List Byte → DecOutcome
  | _, [] => .err .unfinishedSequence
  | acc, b :: rest =>
    if byteContinues b then
      if overflows w (addPayload acc (bytePayload b)) then .err .overflow
      else decodeFrom w (shiftDigit (addPayload acc (bytePayload b))) rest
    else if rest.isEmpty then .ok (addPayload acc (bytePayload b))
    else .err .extraData

/-- `decode(bytes, W)` (R110). -/
def opDecode (bytes : List Byte) (w : Nat) : DecOutcome :=
  if bytes.isEmpty then .err .emptyInput else decodeFrom w 0 bytes

end Sys2Proof.Machine
end

