-- ==== Sys2Proof/Machine/Ops.lean ====
section
/-! DEFINITION. The named operations over the state: the stream primitives `Emit` and `Report` (20_memory.md R52),
raising an error and returning from it (60_exceptions.md R149, R150), and the Decoder's consumption of a byte, shared by
the token and the wire form of it (42_decoder.md R112, R113). -/

namespace Sys2Proof.Machine

open Sys2Proof

/-- The start of every step: `e_out_valid = 0` and `d_done = 0` unless the step emits or reports (R52). -/
def quiet (s : State) : State := { s with seen := { s.seen with eOut := none, dDone := false } }

/-- Write ENC's fields. -/
def setEnc (e : Enc) (s : State) : State := { s with enc := e }

/-- Write DEC's fields. -/
def setDec (d : Dec) (s : State) : State := { s with dec := d }

/-- `Emit(b)` (R52): append `b` to the sink, with `e_out_valid = 1` and `e_out_byte = b`. The sink always accepts (R41;
notes/assumptions/20.md). -/
def emit (b : Byte) (s : State) : State :=
  { s with seen := { s.seen with sink := s.seen.sink ++ [b], eOut := some b } }

/-- The status code of an error kind, by name (R140). -/
def errorStatus : ErrorKind → Status
  | .emptyInput => .emptyInput
  | .unfinishedSequence => .unfinishedSequence
  | .extraData => .extraData
  | .overflow => .overflow

/-- What `D.res` holds for an outcome (R28). -/
def resOf : DecOutcome → Res
  | .ok v => { status := .ok, value := v }
  | .err k => { status := errorStatus k, value := 0 }

/-- `Report(o)` (R52): deliver the outcome, pulse `d_done`, write `D.res`. -/
def report (o : DecOutcome) (s : State) : State :=
  { s with
    dec := { s.dec with res := resOf o }
    seen := { s.seen with reports := s.seen.reports ++ [o], dDone := true } }

/-- TAKING AN EXCEPTION, the one shared error entry (R149): report the error, clear the accumulator, go to `st` (DRAIN
after a byte, IDLE after `END`). Nothing is saved and control goes nowhere. -/
def raise (k : ErrorKind) (st : Phase) (s : State) : State :=
  setDec { (report (.err k) s).dec with acc := 0, st := st } (report (.err k) s)

/-- RETURNING FROM ONE (R150, R114): the sequence's `END` brings DEC back to IDLE. The accumulator is 0 already in
DRAIN (R29) and R114 writes it in no case of DRAIN. -/
def endDrain (s : State) : State := setDec { s.dec with st := .idle } s

/-- The end of a good sequence (R114, phase TERM): report the accumulator, then clear it and go to IDLE. -/
def endGood (s : State) : State :=
  setDec { (report (.ok s.dec.acc) s).dec with acc := 0, st := .idle } (report (.ok s.dec.acc) s)

/-- The Decoder consumes a continuation byte with payload `p` (R112). -/
def consumeCont (p : Digit) (s : State) : State :=
  match s.dec.st with
  | .idle | .cont =>
    if overflows s.cfg.W (addPayload s.dec.acc p) then raise .overflow .drain s
    else setDec { s.dec with acc := shiftDigit (addPayload s.dec.acc p), st := .cont } s
  | .term => raise .extraData .drain s
  | .drain => s

/-- The Decoder consumes a terminal byte with payload `p` (R113). The sum fits `W` bits in every state a run reaches
(R119); the register keeps its low `W` bits (notes/assumptions/15.md). -/
def consumeTerm (p : Digit) (s : State) : State :=
  match s.dec.st with
  | .idle | .cont => setDec { s.dec with acc := toWidth s.cfg.W (addPayload s.dec.acc p), st := .term } s
  | .term => raise .extraData .drain s
  | .drain => s

/-- The Decoder consumes `END` (R114). -/
def consumeEnd (s : State) : State :=
  match s.dec.st with
  | .idle => raise .emptyInput .idle s
  | .cont => raise .unfinishedSequence .idle s
  | .term => endGood s
  | .drain => endDrain s

/-- Record what an operation-level call returned (R10). -/
def returnCall (r : CallResult) (s : State) : State := { s with seen := { s.seen with call := some r } }

/-- Append a call's bytes to the caller's sink (R90). -/
def appendCallSink (bytes : List Byte) (s : State) : State :=
  { s with seen := { s.seen with callSink := s.seen.callSink ++ bytes } }

/-- The three Encoder fields a RESET leaves unspecified take free values within their widths, and the counter moves on
(R36, R160; notes/assumptions/4.md). -/
def unspecifyEnc (s : State) : State :=
  { s with
    enc :=
      { s.enc with
        val := toWidth s.cfg.W (Config.freeVal s.free)
        idx := toWidth (idxBits s.cfg.W) (Config.freeIdx s.free)
        started := Config.freeStarted s.free }
    free := s.free + 1 }

end Sys2Proof.Machine
end

