-- ==== Sys2Proof/Machine/Calls.lean ====
section
/-! DEFINITION. The operation-level calls (40_widthlimits.md R80, 41_encoder.md R90, 42_decoder.md R110). They read and
write no state of the block; what they return is recorded for the caller (notes/assumptions/10.md). -/

namespace Sys2Proof.Machine

open Sys2Proof

/-- `maxBytes(W)` (R80). -/
def execMaxBytes (w : Nat) (s : State) : Host.Outcome State Fault Refusal :=
  if w < 7 then .refused .widthBelowSeven
  else .next (returnCall (.length (maxBytes w)) (quiet s))

/-- `encode(v, W)` (R90). `v > MAXV` is refused (U1). -/
def execEncode (v w : Nat) (s : State) : Host.Outcome State Fault Refusal :=
  if w < 7 then .refused .widthBelowSeven
  else if maxValue w < v then .refused .valueTooWide
  else .next (returnCall (.encoded (opEncode v w)) (appendCallSink (opEncode v w) (quiet s)))

/-- `decode(bytes, W)` (R110). -/
def execDecode (bytes : List Byte) (w : Nat) (s : State) : Host.Outcome State Fault Refusal :=
  if w < 7 then .refused .widthBelowSeven
  else .next (returnCall (.decoded (opDecode bytes w)) (quiet s))

end Sys2Proof.Machine
end

