-- ==== Sys2Proof/Machine/Decoder.lean ====
section
/-! DEFINITION. The token steps of the Decoder unit DEC (42_decoder.md R112, R113, R114). Every one is total in every
phase: DEC is always ready (30_encoding.md R67). -/

namespace Sys2Proof.Machine

open Sys2Proof

/-- `DEC.CONT p` (R112). -/
def execDecCont (p : Digit) (s : State) : Host.Outcome State Fault Refusal := .next (consumeCont p (quiet s))

/-- `DEC.TERM p` (R113). -/
def execDecTerm (p : Digit) (s : State) : Host.Outcome State Fault Refusal := .next (consumeTerm p (quiet s))

/-- `DEC.END` (R114). -/
def execDecEnd (s : State) : Host.Outcome State Fault Refusal := .next (consumeEnd (quiet s))

end Sys2Proof.Machine
end

