-- ==== Sys2Proof/Machine/Encoder.lean ====
section
/-! DEFINITION. The steps of the Encoder unit ENC (41_encoder.md R92 to R95). An internal step that is not enabled does
not happen: nothing changes (R95; notes/assumptions/9.md). -/

namespace Sys2Proof.Machine

open Sys2Proof

/-- `ENC.START v` (R92): accepted when `E.busy = 0`; while busy it is held, with no effect (R164). A number that does
not fit the `W`-bit port is refused (U1). -/
def execEncStart (v : Nat) (s : State) : Host.Outcome State Fault Refusal :=
  if maxValue s.cfg.W < v then .refused .valueTooWide
  else if s.enc.busy then .next (quiet s)
  else .next (setEnc { val := v, idx := maxBytes s.cfg.W - 1, started := false, busy := true } (quiet s))

/-- `ENC.DIGIT` (R93): enabled when `E.busy = 1` and `E.idx != 0`. -/
def execEncDigit (s : State) : Host.Outcome State Fault Refusal :=
  if s.enc.busy && s.enc.idx != 0 then
    if digitEmits (topDigit s.enc.val s.enc.idx) s.enc.started then
      .next (emit (contByte (topDigit s.enc.val s.enc.idx))
        (setEnc { s.enc with val := afterDigit s.enc.val s.enc.idx, idx := s.enc.idx - 1, started := true } (quiet s)))
    else .next (setEnc { s.enc with idx := s.enc.idx - 1 } (quiet s))
  else .next (quiet s)

/-- `ENC.TERM` (R94): enabled when `E.busy = 1` and `E.idx = 0`. -/
def execEncTerm (s : State) : Host.Outcome State Fault Refusal :=
  if s.enc.busy && s.enc.idx == 0 then
    .next (emit (termByte s.enc.val) (setEnc { s.enc with busy := false } (quiet s)))
  else .next (quiet s)

end Sys2Proof.Machine
end

