-- ==== Sys2Proof/Machine/System.lean ====
section
/-! DEFINITION. `RESET`, the block's only system operation (70_reset_and_hazards.md R160). -/

namespace Sys2Proof.Machine

open Sys2Proof

/-- `RESET` (R160), enabled in every state. Bytes already in the sink stay there (R161); the host's pending commands
are the host's. -/
def execReset (s : State) : Host.Outcome State Fault Refusal :=
  .next (unspecifyEnc
    (setDec { acc := 0, st := .idle, res := { status := .none, value := 0 } }
      (setEnc { s.enc with busy := false } (quiet s))))

end Sys2Proof.Machine
end

