-- ==== Sys2Proof/Machine/Wire.lean ====
section
/-! DEFINITION. The two byte classes of the wire format (30_encoding.md R61), as the Decoder meets them: a wire byte is
consumed as the `BYTE` token that carries it (opcode table: "consumed as DEC.CONT", "consumed as DEC.TERM"; R67, R73
`DEC.BYTE`). notes/assumptions/12.md. -/

namespace Sys2Proof.Machine

open Sys2Proof

/-- `CONT`: the wire byte `1ppppppp`, consumed as `DEC.CONT p` (R61, R112). -/
def execCont (p : Digit) (s : State) : Host.Outcome State Fault Refusal := .next (consumeCont p (quiet s))

/-- `TERM`: the wire byte `0ppppppp`, consumed as `DEC.TERM p` (R61, R113). -/
def execTerm (p : Digit) (s : State) : Host.Outcome State Fault Refusal := .next (consumeTerm p (quiet s))

end Sys2Proof.Machine
end

