-- ==== Sys2Proof/Machine/Dispatch.lean ====
section
/-! DEFINITION. One arm per operation of spec/opcode_table.json. -/

namespace Sys2Proof.Machine

open Sys2Proof

def exec (i : Instr) (s : State) : Host.Outcome State Fault Refusal :=
  match i with
  | .maxBytes w => Sys2Proof.Machine.execMaxBytes w s
  | .encode v w => Sys2Proof.Machine.execEncode v w s
  | .decode bytes w => Sys2Proof.Machine.execDecode bytes w s
  | .encStart v => Sys2Proof.Machine.execEncStart v s
  | .encDigit => Sys2Proof.Machine.execEncDigit s
  | .encTerm => Sys2Proof.Machine.execEncTerm s
  | .decCont p => Sys2Proof.Machine.execDecCont p s
  | .decTerm p => Sys2Proof.Machine.execDecTerm p s
  | .decEnd => Sys2Proof.Machine.execDecEnd s
  | .reset => Sys2Proof.Machine.execReset s
  | .cont p => Sys2Proof.Machine.execCont p s
  | .term p => Sys2Proof.Machine.execTerm p s

end Sys2Proof.Machine
end

