-- ==== Sys2Proof/Machine/Fetch.lean ====
section
/-! DEFINITION. What the next step is: the turn at the head of the host's schedule, read at the ports and decoded
(30_encoding.md R67, R68, R72), ENC's own internal step (41_encoder.md R95), the precedence of RESET
(70_reset_and_hazards.md R160) and the hold of a command (R164). -/

namespace Sys2Proof.Machine

open Sys2Proof

/-- The internal step ENC has enabled, if any (R95, R100). -/
def internalStep (e : Enc) : Option Instr :=
  if e.busy then (if e.idx = 0 then some .encTerm else some .encDigit) else none

/-- The turn of a state. With nothing left in the schedule the block still takes its own steps (R95, R163): ENC's
internal step while it is busy, else the acceptance of a command the host still presents. notes/assumptions/6.md. -/
def currentTurn (s : State) : Turn :=
  match s.host.sched with
  | t :: _ => t
  | [] => { rst := 0#1, offer := if s.enc.busy then .encStep else .command }

/-- What the host drives on the command port: `e_start = 1` with the oldest pending operand on `e_value`, or
`e_start = 0` when it has none (R68). -/
def commandPort (cmds : List Nat) : PortWord :=
  match cmds with
  | v :: _ => .command 1#1 v
  | [] => .command 0#1 0

/-- What stands on a port in a turn; `none` where no port is driven. `rst = 1` pre-empts every other offer (R160); the
pre-empted offer is gone with its turn (notes/assumptions/16.md). -/
def presented (s : State) : Option PortWord :=
  if (currentTurn s).rst = 1#1 then some (.rst 1#1)
  else
    match (currentTurn s).offer with
    | .idle => none
    | .encStep => none
    | .command => some (commandPort s.host.cmds)
    | .token t => some (.token t)
    | .wire b => some (.wire b)
    | .call _ => none

/-- The operation a call stands for. -/
def callInstr : Call → Instr
  | .maxBytes w => .maxBytes w
  | .encode v w => .encode v w
  | .decode bytes w => .decode bytes w

/-- The operation the decoder reads from a port word, if any. -/
def readPort (p : PortWord) : Option Instr :=
  match decodeWord p with
  | .ok i => some i
  | .error _ => none

/-- The operation of the next step; `none` where nothing is enabled. -/
def offered (s : State) : Option Instr :=
  match presented s with
  | some p => readPort p
  | none =>
    match (currentTurn s).offer with
    | .encStep => internalStep s.enc
    | .call c => some (callInstr c)
    | _ => none

/-- The commands still pending once the operation `i` is taken from the ports: an `ENC.START` leaves the list when it
is accepted, and stays, held, while ENC is busy (R164). -/
def afterCommand (i : Option Instr) (s : State) : List Nat :=
  match i with
  | some (.encStart _) => if s.enc.busy then s.host.cmds else s.host.cmds.tail
  | _ => s.host.cmds

/-- The state with the turn taken from the host's side. -/
def takeTurn (s : State) : State :=
  { s with host := { sched := s.host.sched.tail, cmds := afterCommand (offered s) s } }

/-- The state with `turn` as its next turn. -/
def withTurn (t : Turn) (s : State) : State := { s with host := { s.host with sched := t :: s.host.sched } }

/-- The state in which the host presents the port word `p` next. -/
def withPort (p : PortWord) (s : State) : State :=
  match p with
  | .rst pin => withTurn { rst := pin, offer := .idle } s
  | .command eStart v =>
    if eStart = 1#1 then
      withTurn { rst := 0#1, offer := .command } { s with host := { s.host with cmds := v :: s.host.cmds } }
    else withTurn { rst := 0#1, offer := .idle } s
  | .token t => withTurn { rst := 0#1, offer := .token t } s
  | .wire b => withTurn { rst := 0#1, offer := .wire b } s

end Sys2Proof.Machine
end

