-- ==== Sys2Proof/Machine/Step.lean ====
section
/-! DEFINITION. One step: take the turn, run the operation it offers. Where nothing is enabled the block keeps all its
state and its output pulses are low (41_encoder.md R95, 60_exceptions.md R154; notes/assumptions/18.md). -/

namespace Sys2Proof.Machine

open Sys2Proof

def step (s : State) : Host.Outcome State Fault Refusal :=
  match offered s with
  | some i => exec i (takeTurn s)
  | none => .next (quiet (takeTurn s))

/-- The state in which the next step meets the instruction whose table bits are `w`: the host presents it on its port,
with a zero operand on `e_value` (notes/assumptions/14.md). -/
def State.withFetchWord (s : State) (nbits w : Nat) : State :=
  match tableWordPort nbits w with
  | some p => withPort p s
  | none => s

end Sys2Proof.Machine
end

