-- ==== Sys2Proof/Machine/Ports.lean ====
section
/-! DEFINITION. The ports of one instance (30_encoding.md R74): the outputs, each a copy of state (10_state.md R33) or of
the step just taken (20_memory.md R52), with the numeric codes of the spec (R27, R28, R140), and the inputs as the host
drives them in the next step. Reading a port has no side effect (R33). -/

namespace Sys2Proof.Machine

open Sys2Proof

/-- The code of a phase on `d_phase[1:0]` (R27). -/
def phaseCode : Phase → BitVec 2
  | .idle => 0#2
  | .cont => 1#2
  | .term => 2#2
  | .drain => 3#2

/-- The code of a status on `d_status[2:0]` (R28, R140). Codes 6 and 7 are never written. -/
def statusCode : Status → BitVec 3
  | .none => 0#3
  | .ok => 1#3
  | .emptyInput => 2#3
  | .unfinishedSequence => 3#3
  | .extraData => 4#3
  | .overflow => 5#3

/-- The outputs. `m_bytes`, and the `W`-bit `d_value`, are given as numbers: their widths vary with `W`. -/
structure OutPorts where
  /-- `m_bytes`: the constant `M` (R83). -/
  mBytes : Nat
  /-- `e_ready = NOT E.busy` (R68). -/
  eReady : Bool
  /-- `e_busy = E.busy` (R24). -/
  eBusy : Bool
  /-- `e_out_valid` (R52). -/
  eOutValid : Bool
  /-- `e_out_byte`, valid only where `e_out_valid = 1` (R68). -/
  eOutByte : Option Byte
  /-- `d_done` (R52). -/
  dDone : Bool
  /-- `d_status = D.res.status` (R28). -/
  dStatus : BitVec 3
  /-- `d_value = D.res.value` (R28). -/
  dValue : Nat
  /-- `d_phase = D.st` (R27). -/
  dPhase : BitVec 2
deriving DecidableEq, Repr

/-- What the block drives after the step just taken. -/
def outPorts (s : State) : OutPorts where
  mBytes := maxBytes s.cfg.W
  eReady := !s.enc.busy
  eBusy := s.enc.busy
  eOutValid := s.seen.eOut.isSome
  eOutByte := s.seen.eOut
  dDone := s.seen.dDone
  dStatus := statusCode s.dec.res.status
  dValue := s.dec.res.value
  dPhase := phaseCode s.dec.st

/-- The inputs. A number on a data port means something only while its strobe is 1. -/
structure InPorts where
  /-- `rst` (R160). -/
  rst : BitVec 1
  /-- `e_start` (R68). -/
  eStart : BitVec 1
  /-- `e_value` (R68), while `e_start = 1`. -/
  eValue : Option Nat
  /-- `d_valid` (R67). -/
  dValid : BitVec 1
  /-- `{d_end, d_byte}`, the token (R67), while `d_valid = 1`. -/
  dTok : Option Token
deriving DecidableEq, Repr

/-- What the host drives in the next step, read from its schedule. A wire byte stands on the token port with
`d_end = 0` (R67). -/
def inPorts (s : State) : InPorts :=
  match (currentTurn s).offer with
  | .command =>
    match s.host.cmds with
    | v :: _ => ⟨(currentTurn s).rst, 1#1, some v, 0#1, none⟩
    | [] => ⟨(currentTurn s).rst, 0#1, none, 0#1, none⟩
  | .token t => ⟨(currentTurn s).rst, 0#1, none, 1#1, some t⟩
  | .wire b => ⟨(currentTurn s).rst, 0#1, none, 1#1, some (0#1 ++ b)⟩
  | .idle => ⟨(currentTurn s).rst, 0#1, none, 0#1, none⟩
  | .encStep => ⟨(currentTurn s).rst, 0#1, none, 0#1, none⟩
  | .call _ => ⟨(currentTurn s).rst, 0#1, none, 0#1, none⟩

end Sys2Proof.Machine
end

