-- ==== Sys2Proof/Machine/Program.lean ====
section
/-! DEFINITION. The step-level program notation of 30_encoding.md R73 as turns of the host's schedule: one turn per line,
and the pseudo-operations `ENC.RUN`, `DEC.SEQ` and `LOOP` by their expansions. -/

namespace Sys2Proof.Machine

open Sys2Proof

/-- A turn in which `rst = 0`. -/
def turnOf (o : Offer) : Turn := { rst := 0#1, offer := o }

/-- `RESET`. -/
def turnReset : Turn := { rst := 1#1, offer := .idle }

/-- `ENC.START`: the host presents its oldest pending command. -/
def turnStart : Turn := turnOf .command

/-- `ENC.STEP`: ENC takes its one enabled internal step. -/
def turnEnc : Turn := turnOf .encStep

/-- The token `BYTE(b)` (R67). -/
def byteToken (b : Byte) : Token := 0#1 ++ b

/-- The token `END`, its ignored bits 0 (R67). -/
def endToken : Token := 0x100#9

/-- `DEC.BYTE b`. -/
def turnByte (b : Byte) : Turn := turnOf (.token (byteToken b))

/-- `DEC.END`. -/
def turnEnd : Turn := turnOf (.token endToken)

/-- `ENC.RUN`: the start, then `M` times `ENC.STEP`. -/
def encRun (w : Nat) : List Turn := turnStart :: List.replicate (maxBytes w) turnEnc

/-- `DEC.SEQ bytes`: a `BYTE` token each, then `END`. -/
def decSeq (bytes : List Byte) : List Turn := bytes.map turnByte ++ [turnEnd]

/-- `LOOP v`: `ENC.RUN v`, every emitted byte forwarded as `DEC.BYTE`, then `DEC.END`. (The bytes ENC emits for `v` are
`encode(v, W)`, R98.) -/
def loopRun (v w : Nat) : List Turn := encRun w ++ decSeq (opEncode v w)

/-- Put turns before what the host had scheduled. -/
def schedule (ts : List Turn) (s : State) : State := { s with host := { s.host with sched := ts ++ s.host.sched } }

/-- Put commands before what the host had pending. -/
def present (vs : List Nat) (s : State) : State := { s with host := { s.host with cmds := vs ++ s.host.cmds } }

end Sys2Proof.Machine
end

