-- ==== Sys2Proof/Safety.lean ====
section
/-! DEFINITION. What claims are stated in: the invariants of the two units (10_state.md R25, R29, R28), the register
widths (R20), quiescence (70_reset_and_hazards.md R163), and the shape and meaning of byte sequences (30_encoding.md
R62 to R66), written without reference to the machine's loops. -/

namespace Sys2Proof.Machine

open Sys2Proof

/-- The ENC invariant (R25). -/
def EncInv (w : Nat) (e : Enc) : Prop :=
  e.busy = true → e.idx ≤ maxBytes w - 1 ∧ e.val < 2 ^ (7 * (e.idx + 1))

/-- The DEC invariant (R29). -/
def DecInv (w : Nat) (d : Dec) : Prop :=
  match d.st with
  | .idle => d.acc = 0
  | .cont => d.acc % 128 = 0 ∧ d.acc ≤ lim w * 128
  | .term => d.acc ≤ maxValue w
  | .drain => d.acc = 0

/-- `D.res.value` is 0 for every status but OK (R28). -/
def ResInv (r : Res) : Prop := r.status ≠ .ok → r.value = 0

/-- Every register stays inside its width (R20). -/
structure InWidth (s : State) : Prop where
  val : s.enc.val < 2 ^ s.cfg.W
  idx : s.enc.idx < 2 ^ idxBits s.cfg.W
  acc : s.dec.acc < 2 ^ s.cfg.W
  value : s.dec.res.value < 2 ^ s.cfg.W

/-- The invariant of the machine: R25, R29, R28 and the widths of R20. -/
structure State.Inv (s : State) : Prop where
  width : InWidth s
  enc : EncInv s.cfg.W s.enc
  dec : DecInv s.cfg.W s.dec
  res : ResInv s.dec.res

/-- The block is quiescent (R163). -/
def Quiescent (s : State) : Prop := s.enc.busy = false ∧ s.dec.st = .idle

/-- A well-formed sequence: continuation bytes, then exactly one terminal byte (R62). -/
def WellFormedSeq (s : List Byte) : Prop :=
  ∃ init last, s = init ++ [last] ∧ (∀ b ∈ init, byteContinues b = true) ∧ byteContinues last = false

/-- The canonical form: a single byte, or a first byte other than `0x80` (R63). -/
def CanonicalSeq (s : List Byte) : Prop := WellFormedSeq s ∧ (s.length = 1 ∨ s.head? ≠ some 0x80#8)

/-- The number a sequence of payloads denotes: `p[0]` is the most significant digit in base 128 (R65). -/
def seqValue : List Byte → Nat
  | [] => 0
  | b :: rest => (bytePayload b).toNat * 128 ^ rest.length + seqValue rest

/-- The number of significant bits of `v` (R64). -/
def bitLength (v : Nat) : Nat := if v = 0 then 0 else Nat.log2 v + 1

/-- The canonical length `k(v) = max(1, ceil(bitlength(v) / 7))` (R64). -/
def canonicalLength (v : Nat) : Nat := max 1 ((bitLength v + 6) / 7)

/-- Digit position `i` of `v`, `v[7*i+6 : 7*i]` (R66). -/
def digitOf (v i : Nat) : Nat := v / 2 ^ (7 * i) % 128

/-- Byte `j` of the canonical sequence of `v` (R66, R91): the flag is set on all but the last. -/
def canonicalByte (v j : Nat) : Byte :=
  BitVec.ofNat 8 ((if j < canonicalLength v - 1 then 0x80 else 0x00) + digitOf v (canonicalLength v - 1 - j))

/-- The canonical sequence of `v` in closed form (R66, R91). -/
def canonicalSeq (v : Nat) : List Byte := (List.range (canonicalLength v)).map (canonicalByte v)

/-- The continuation bytes before the first terminal byte of a sequence (R111). -/
def contPrefix (s : List Byte) : List Byte := s.takeWhile byteContinues

/-- The closed characterisation of `decode` (R111): `t` is the index of the first terminal byte, `P` the value of the
continuation bytes before it. -/
def closedDecode (s : List Byte) (w : Nat) : DecOutcome :=
  if s.length = 0 then .err .emptyInput
  else if 1 ≤ (contPrefix s).length ∧ lim w < seqValue (contPrefix s) then .err .overflow
  else if (contPrefix s).length = s.length then .err .unfinishedSequence
  else if (contPrefix s).length < s.length - 1 then .err .extraData
  else .ok (128 * seqValue (contPrefix s) + (bytePayload (s.getD (contPrefix s).length 0#8)).toNat)

/-- The observer's record of a step that emits nothing and reports nothing (R52). -/
def silent (x : Seen) : Seen := { x with eOut := none, dDone := false }

/-- The observer's record of a step that emits `b` and reports nothing (R52). -/
def emitted (b : Byte) (x : Seen) : Seen := { x with sink := x.sink ++ [b], eOut := some b, dDone := false }

/-- The observer's record of a step that reports `o` and emits nothing (R52). -/
def reported (o : DecOutcome) (x : Seen) : Seen :=
  { x with reports := x.reports ++ [o], eOut := none, dDone := true }

/-- The step a state gives is `t` (and so no fault and no refusal). -/
def StepsTo (n : Nat) (s t : State) : Prop := core.run n s = .next t

/-- The steps of ENC. -/
def isEncInstr : Instr → Bool
  | .encStart _ => true
  | .encDigit => true
  | .encTerm => true
  | _ => false

/-- The steps of DEC: the three tokens, and the two wire bytes it meets as tokens. -/
def isDecInstr : Instr → Bool
  | .decCont _ => true
  | .decTerm _ => true
  | .decEnd => true
  | .cont _ => true
  | .term _ => true
  | _ => false

/-- A turn that moves ENC and cannot be a reset. -/
def isEncTurn (t : Turn) : Bool :=
  match t.rst, t.offer with
  | 0#1, .encStep => true
  | 0#1, .command => true
  | _, _ => false

/-- A turn that moves DEC and cannot be a reset. -/
def isDecTurn (t : Turn) : Bool :=
  match t.rst, t.offer with
  | 0#1, .token _ => true
  | 0#1, .wire _ => true
  | _, _ => false

/-- Two states that differ at most in the three fields a reset leaves unspecified (R36). -/
def AgreeButUnspecified (s t : State) : Prop :=
  t = { s with enc := { s.enc with val := t.enc.val, idx := t.enc.idx, started := t.enc.started } }

end Sys2Proof.Machine
end

