-- ==== Sys2Proof/Certificates/Slice0/Obligations.lean ====
section
/-! DEFINITION. The statements for the provers, one per rule or group of rules of spec/, in the order of the spec's
files. Widths are written out (`W`, `2 ^ W`, `W / 7 + 1`), not through the model's own functions, wherever the rule
writes them out. A statement about a next state gives the WHOLE next state, so that it is its own frame. -/

open Sys2Proof Sys2Proof.Machine

/-! ### Configuration and calls (00_scope.md, 40_widthlimits.md) -/

/-- An instance of width `w` can be built exactly when `w >= 7` (R5, U2), and it is then in its reset state with that
width. That a refused width is a refusal by name is the model's (notes/assumptions/1.md). -/
def Obligations.BuildsExactlyWidthsFromSeven : Prop :=
  ∀ w : Nat,
    (w < 7 → State.build w = .error .widthBelowSeven) ∧
    (7 ≤ w → ∃ c : Config, c.W = w ∧ State.build w = .ok (State.resetAt c))

/-- `maxBytes(W)` returns `floor(W/7) + 1` and changes nothing (R80). That the result stands in `seen.call` is the
model's (notes/assumptions/10.md). -/
def Obligations.MaxBytesCallReturnsFormula : Prop :=
  ∀ (w : Nat) (s : State), 7 ≤ w →
    exec (.maxBytes w) s = .next { s with seen := { silent s.seen with call := some (.length (w / 7 + 1)) } }

/-- The four values the source states (R81), from the call itself. -/
def Obligations.MaxBytesSourceValues : Prop :=
  ∀ s : State,
    exec (.maxBytes 8) s = .next { s with seen := { silent s.seen with call := some (.length 2) } } ∧
    exec (.maxBytes 16) s = .next { s with seen := { silent s.seen with call := some (.length 3) } } ∧
    exec (.maxBytes 32) s = .next { s with seen := { silent s.seen with call := some (.length 5) } } ∧
    exec (.maxBytes 64) s = .next { s with seen := { silent s.seen with call := some (.length 10) } }

/-- The two inequalities the other families rely on, and what `M` is not (the spec's own inferences in R82, R84). -/
def Obligations.PayloadBudgetExceedsWidth : Prop :=
  ∀ w : Nat, 7 ≤ w →
    w < 7 * maxBytes w ∧ 7 * (maxBytes w - 1) ≤ w ∧ (7 * (maxBytes w - 1) = w ↔ 7 ∣ w) ∧
    (¬ 7 ∣ w → maxBytes w = (w + 6) / 7) ∧ (7 ∣ w → maxBytes w = (w + 6) / 7 + 1)

/-- Every operation that fits its width completes; the only stops are the refusals of U1 and U2 (R5), and there is no
fault. -/
def Obligations.WellFormedOperationsComplete : Prop :=
  ∀ (i : Instr) (s : State),
    (i.wf s.cfg.W = true → ∃ t, exec i s = .next t) ∧
    (i.wf s.cfg.W = false → exec i s = .refused .widthBelowSeven ∨ exec i s = .refused .valueTooWide)

/-! ### Encoding (30_encoding.md) -/

/-- The two classes of the 256 byte values: pattern, range, value and field extraction (R61). -/
def Obligations.WireByteClasses : Prop :=
  ∀ b : Byte,
    (b &&& 0x80#8 ≠ 0#8 →
      decodeWord (.wire b) = .ok (.cont ((b &&& 0x7F#8).setWidth 7)) ∧ 0x80 ≤ b.toNat ∧
      b.toNat = 128 + (b &&& 0x7F#8).toNat ∧ b = 0x80#8 ||| (b &&& 0x7F#8)) ∧
    (b &&& 0x80#8 = 0#8 →
      decodeWord (.wire b) = .ok (.term ((b &&& 0x7F#8).setWidth 7)) ∧ b.toNat ≤ 0x7F ∧
      b.toNat = (b &&& 0x7F#8).toNat)

/-- The grammar, its three ill-formed shapes and the error each has (R62). -/
def Obligations.IllFormedShapesAndTheirErrors : Prop :=
  ∀ (w : Nat) (s : List Byte), 7 ≤ w →
    (WellFormedSeq s → s ≠ []) ∧
    (WellFormedSeq s ↔
      ¬ (s = [] ∨ (s ≠ [] ∧ ∀ b ∈ s, byteContinues b = true) ∨
        ∃ pre t b rest, s = pre ++ t :: b :: rest ∧ (∀ x ∈ pre, byteContinues x = true) ∧ byteContinues t = false)) ∧
    opDecode [] w = .err .emptyInput ∧
    ((s ≠ [] ∧ ∀ b ∈ s, byteContinues b = true) →
      opDecode s w = if lim w < seqValue s then .err .overflow else .err .unfinishedSequence) ∧
    (∀ pre t b rest, s = pre ++ t :: b :: rest → (∀ x ∈ pre, byteContinues x = true) → byteContinues t = false →
      opDecode s w = if lim w < seqValue pre then .err .overflow else .err .extraData)

/-- The token format and the always-ready port (R67): which token each of the 512 patterns is, what the ports carry
while it is presented, and that it is consumed in that step, in every phase. -/
def Obligations.TokenFormatAlwaysReady : Prop :=
  (∀ t : Token,
    (t.getLsbD 8 = true → decodeWord (.token t) = .ok .decEnd) ∧
    (t.getLsbD 8 = false → t.getLsbD 7 = true → decodeWord (.token t) = .ok (.decCont (t.extractLsb' 0 7))) ∧
    (t.getLsbD 8 = false → t.getLsbD 7 = false → decodeWord (.token t) = .ok (.decTerm (t.extractLsb' 0 7)))) ∧
  (∀ (s : State) (t : Token) (ts : List Turn), s.host.sched = ⟨0#1, .token t⟩ :: ts →
    (inPorts s).dValid = 1#1 ∧ (inPorts s).dTok = some t ∧
    ∃ i u, decodeWord (.token t) = .ok i ∧ exec i { s with host := { s.host with sched := ts } } = .next u ∧
      step s = .next u ∧ u.host.sched = ts)

/-- For every operation with a bit pattern, the decoder reads back what the encoder writes, whatever the operands; the
operations without a pattern are the calls and ENC's internal steps (R72); and whatever word the decoder accepts, the
operation read encodes to that word, but for the 8 ignored bits of `END`. -/
def Obligations.DecodeEncodeAgree : Prop :=
  ∀ (w : Nat) (i : Instr), i.wf w = true →
    (∀ p, encodeWord i = some p → decodeWord p = .ok i) ∧
    (encodeWord i = none ↔ i.row.width = 0) ∧
    (∀ p, decodeWord p = .ok i → i ≠ .decEnd → encodeWord i = some p) ∧
    (∀ p, decodeWord p = .ok .decEnd ↔ ∃ low : Byte, p = .token (1#1 ++ low))

/-- Words written out from the spec's patterns (R61, R67, R68, R160) decode to what they stand for. -/
def Obligations.WrittenWordsDecode : Prop :=
  decodeWord (.token 0b010000001#9) = .ok (.decCont 1#7) ∧ decodeWord (.token 0b000101010#9) = .ok (.decTerm 42#7) ∧
  decodeWord (.token 0b101111110#9) = .ok .decEnd ∧ decodeWord (.wire 0b10101010#8) = .ok (.cont 42#7) ∧
  decodeWord (.wire 0b01111111#8) = .ok (.term 127#7) ∧ decodeWord (.rst 1#1) = .ok .reset ∧
  decodeWord (.command 1#1 300) = .ok (.encStart 300) ∧ decodeWord (.rst 0#1) = .error .resetPinLow ∧
  decodeWord (.command 0#1 300) = .error .startStrobeLow

/-! ### How a step runs (20_memory.md, 70_reset_and_hazards.md) -/

/-- A step runs the decoded operation: what stands on a port, or ENC's enabled internal step, or a call. Around it the
step takes the turn from the host's schedule, and the oldest pending command exactly when an `ENC.START` is offered to
an idle ENC, that is when it is accepted; it touches nothing else. The schedule and the list of pending commands are the
model's (notes/assumptions/6.md, notes/assumptions/8.md). -/
def Obligations.StepRunsOfferedOperation : Prop :=
  ∀ s : State,
    (∀ p i, presented s = some p → decodeWord p = .ok i → step s = exec i (takeTurn s)) ∧
    (∀ p e, presented s = some p → decodeWord p = .error e → step s = .next { takeTurn s with seen := silent s.seen }) ∧
    (presented s = none → ∀ c, (currentTurn s).offer = .call c → step s = exec (callInstr c) (takeTurn s)) ∧
    (presented s = none → (currentTurn s).offer = .encStep →
      step s = match internalStep s.enc with
        | some i => exec i (takeTurn s)
        | none => .next { takeTurn s with seen := silent s.seen }) ∧
    (presented s = none → (currentTurn s).offer = .idle → step s = .next { takeTurn s with seen := silent s.seen }) ∧
    (s.enc.busy = false → (∃ v, offered s = some (.encStart v)) →
      takeTurn s = { s with host := { sched := s.host.sched.tail, cmds := s.host.cmds.tail } }) ∧
    (¬ (s.enc.busy = false ∧ ∃ v, offered s = some (.encStart v)) →
      takeTurn s = { s with host := { sched := s.host.sched.tail, cmds := s.host.cmds } })

/-- The streams and what their strobes mean (R52): a step emits at most one byte and reports at most one outcome;
`e_out_valid` and `e_out_byte` show the byte in that step and are low in a step that emits none; `d_done` pulses with a
report, which writes `D.res`, and is low in a step that reports none; and a token presented with `d_valid = 1` (and no
reset beside it) is what the step consumes, in every phase. -/
def Obligations.StrobesMarkEvents : Prop :=
  (∀ s : State, (inPorts s).rst = 0#1 → (inPorts s).dValid = 1#1 →
    ∃ tok i u, (inPorts s).dTok = some tok ∧ decodeWord (.token tok) = .ok i ∧ exec i (takeTurn s) = .next u ∧
      step s = .next u) ∧
  ∀ s t : State, step s = .next t →
    ((t.seen.sink = s.seen.sink ∧ (outPorts t).eOutValid = false) ∨
      ∃ b, t.seen.sink = s.seen.sink ++ [b] ∧ (outPorts t).eOutValid = true ∧ (outPorts t).eOutByte = some b) ∧
    ((t.seen.reports = s.seen.reports ∧ (outPorts t).dDone = false) ∨
      ∃ o, t.seen.reports = s.seen.reports ++ [o] ∧ (outPorts t).dDone = true ∧
        t.dec.res = match o with
          | .ok v => ⟨.ok, v⟩
          | .err .emptyInput => ⟨.emptyInput, 0⟩
          | .err .unfinishedSequence => ⟨.unfinishedSequence, 0⟩
          | .err .extraData => ⟨.extraData, 0⟩
          | .err .overflow => ⟨.overflow, 0⟩)

/-- ENC and DEC steps commute: either order gives the same registers, sink and outcomes (the spec's own inference,
20_memory.md R49 (c)). -/
def Obligations.EncAndDecStepsCommute : Prop :=
  ∀ (i j : Instr) (s : State), isEncInstr i = true → isDecInstr j = true → i.wf s.cfg.W = true →
    ∃ a b t u, exec i s = .next a ∧ exec j a = .next t ∧ exec j s = .next b ∧ exec i b = .next u ∧
      t.enc = u.enc ∧ t.dec = u.dec ∧ t.seen.sink = u.seen.sink ∧ t.seen.reports = u.seen.reports ∧
      t.cfg = u.cfg ∧ t.host = u.host ∧ t.free = u.free

/-- Under every schedule of ENC and DEC turns, each unit ends as if it had run alone: ENC and the sink as under the ENC
turns only, DEC and the outcomes as under the DEC turns only (the spec's own inference, R49 (c); U10). -/
def Obligations.InterleavingGivesEachUnitItsOwnRun : Prop :=
  ∀ (s : State) (ts : List Turn), (∀ t ∈ ts, isEncTurn t = true ∨ isDecTurn t = true) →
    (∀ v ∈ s.host.cmds, v ≤ maxValue s.cfg.W) →
    ∃ a e d, StepsTo ts.length (schedule ts s) a ∧
      StepsTo (ts.filter isEncTurn).length (schedule (ts.filter isEncTurn) s) e ∧
      StepsTo (ts.filter isDecTurn).length (schedule (ts.filter isDecTurn) s) d ∧
      a.enc = e.enc ∧ a.seen.sink = e.seen.sink ∧ a.host.cmds = e.host.cmds ∧
      a.dec = d.dec ∧ a.seen.reports = d.seen.reports

/-- The machine's invariant (R25, R29, R28 and the register widths of R20) is kept by every step (the spec proves R25
and R29 as inferences of its own). -/
def Obligations.EveryStepKeepsTheInvariant : Prop :=
  ∀ s t : State, s.Inv → step s = .next t → t.Inv

/-- The machine's invariant holds after reset, at every width. -/
def Obligations.ResetStateMeetsTheInvariant : Prop :=
  State.reset.Inv ∧ ∀ c : Config, (State.resetAt c).Inv

/-- No step changes `W`, so the constant port `m_bytes` shows `floor(W/7) + 1` before and after every step, reset
included, and fits its `ceil(log2(M+1))` bits; `M - 1`, the start value of `E.idx`, fits `ceil(log2(M))` bits (R83). -/
def Obligations.MBytesPortIsConstant : Prop :=
  (∀ s t : State, step s = .next t →
    t.cfg = s.cfg ∧ (outPorts s).mBytes = s.cfg.W / 7 + 1 ∧ (outPorts t).mBytes = s.cfg.W / 7 + 1) ∧
  (∀ c : Config, c.W / 7 + 1 < 2 ^ mBytesBits c.W ∧ 2 ^ (mBytesBits c.W - 1) < c.W / 7 + 1 + 1 ∧
    c.W / 7 < 2 ^ idxBits c.W ∧ 2 ^ (idxBits c.W - 1) < c.W / 7 + 1)

/-! ### The Encoder (41_encoder.md) -/

/-- `ENC.START` (R92): its word, its effect when `E.busy = 0`, and its hold while `E.busy = 1`. -/
def Obligations.EncStartLoadsOrHolds : Prop :=
  ∀ (s : State) (v : Nat), v ≤ 2 ^ s.cfg.W - 1 →
    decodeWord (.command 1#1 v) = .ok (.encStart v) ∧
    (s.enc.busy = false →
      exec (.encStart v) s = .next { s with
        enc := { val := v, idx := (s.cfg.W / 7 + 1) - 1, started := false, busy := true }, seen := silent s.seen } ∧
      1 ≤ (s.cfg.W / 7 + 1) - 1) ∧
    (s.enc.busy = true → exec (.encStart v) s = .next { s with seen := silent s.seen })

/-- `ENC.DIGIT` (R93), in every state that meets R25: that it is the enabled step, the digit, when it is emitted and as what byte, what is left. -/
def Obligations.EncDigitEmitsOrSkips : Prop :=
  ∀ s : State, EncInv s.cfg.W s.enc → s.enc.busy = true → 1 ≤ s.enc.idx →
    internalStep s.enc = some .encDigit ∧
    (s.enc.val / 2 ^ (7 * s.enc.idx) ≤ 127) ∧
    (s.enc.val / 2 ^ (7 * s.enc.idx) ≠ 0 ∨ s.enc.started = true →
      ∃ b : Byte, b.toNat = 128 + s.enc.val / 2 ^ (7 * s.enc.idx) ∧
        exec .encDigit s = .next { s with
          enc := { val := s.enc.val % 2 ^ (7 * s.enc.idx), idx := s.enc.idx - 1, started := true, busy := true }
          seen := emitted b s.seen }) ∧
    (s.enc.val / 2 ^ (7 * s.enc.idx) = 0 → s.enc.started = false →
      exec .encDigit s = .next { s with enc := { s.enc with idx := s.enc.idx - 1 }, seen := silent s.seen }) ∧
    (7 ∣ s.cfg.W → s.enc.idx = s.cfg.W / 7 → s.enc.val < 2 ^ s.cfg.W → s.enc.val / 2 ^ (7 * s.enc.idx) = 0)

/-- `ENC.TERM` (R94), in every state that meets R25: that it is the enabled step; the byte is `E.val` itself, bit 7 clear, emitted whatever
`E.started` holds; only `E.busy` is written. -/
def Obligations.EncTermEmitsTheRemainder : Prop :=
  ∀ s : State, EncInv s.cfg.W s.enc → s.enc.busy = true → s.enc.idx = 0 →
    internalStep s.enc = some .encTerm ∧
    ∃ b : Byte, b.toNat = s.enc.val ∧ b.getLsbD 7 = false ∧
      exec .encTerm s = .next { s with enc := { s.enc with busy := false }, seen := emitted b s.seen }

/-- ENC idle and ENC busy (R95): without `ENC.START` or RESET an idle ENC emits and changes nothing; a busy ENC has
exactly one internal step enabled, nothing but RESET changes it otherwise, and it reaches `E.busy = 0` in exactly
`E.idx + 1` internal steps, which from an accepted `ENC.START` is exactly `M`. -/
def Obligations.EncRunsToItsTerminalByte : Prop :=
  (∀ s t : State, s.enc.busy = false → (∀ v, offered s ≠ some (.encStart v)) → offered s ≠ some .reset →
    step s = .next t → t.enc = s.enc ∧ t.seen.sink = s.seen.sink) ∧
  (∀ (s : State) (ts : List Turn), s.enc.busy = true → s.host.sched = turnEnc :: ts →
    offered s = some (if s.enc.idx = 0 then .encTerm else .encDigit)) ∧
  (∀ s t : State, s.enc.busy = true → offered s ≠ some .encDigit → offered s ≠ some .encTerm →
    offered s ≠ some .reset → step s = .next t → t.enc = s.enc ∧ t.seen.sink = s.seen.sink) ∧
  (∀ s : State, s.enc.busy = true →
    (∀ n, n ≤ s.enc.idx → ∃ t, StepsTo n (schedule (List.replicate n turnEnc) s) t ∧ t.enc.busy = true) ∧
    (∃ t, StepsTo (s.enc.idx + 1) (schedule (List.replicate (s.enc.idx + 1) turnEnc) s) t ∧ t.enc.busy = false)) ∧
  (∀ (s : State) (v : Nat), s.enc.busy = false → v < 2 ^ s.cfg.W →
    ∃ u, exec (.encStart v) s = .next u ∧
      (∀ n, n < s.cfg.W / 7 + 1 →
        ∃ t, StepsTo n (schedule (List.replicate n turnEnc) u) t ∧ t.enc.busy = true) ∧
      (∃ t, StepsTo (s.cfg.W / 7 + 1) (schedule (List.replicate (s.cfg.W / 7 + 1) turnEnc) u) t ∧
        t.enc.busy = false))

/-- The Encoder writes nothing but its own four fields and the sink, raises no error outcome, and its step does not
depend on DEC (R101). -/
def Obligations.EncoderNeverFailsNorTouchesDec : Prop :=
  ∀ (i : Instr) (s : State), isEncInstr i = true → i.wf s.cfg.W = true →
    ∃ (e : Enc) (bytes : List Byte) (out : Option Byte),
      ∀ d : Dec, exec i { s with dec := d } =
        .next { s with dec := d, enc := e, seen := { silent s.seen with sink := s.seen.sink ++ bytes, eOut := out } }

/-- The closed form of `encode` (the spec's own inference, R91): `k(v)` bytes, byte `j` the digit `k-1-j` with bit 7 set
on all but the last, appended to the caller's sink; nothing of the block changes. Where the result stands is the
model's (notes/assumptions/10.md). -/
def Obligations.EncodeCallGivesClosedForm : Prop :=
  ∀ (v w : Nat) (s : State), 7 ≤ w → v < 2 ^ w →
    exec (.encode v w) s = .next { s with
      seen := { silent s.seen with
        callSink := s.seen.callSink ++ canonicalSeq v, call := some (.encoded (canonicalSeq v)) } }

/-- The properties of every Encoder output (the spec's own inferences in R99, with R64's account of `k(v)`). -/
def Obligations.EncodeOutputProperties : Prop :=
  ∀ v w : Nat, 7 ≤ w → v < 2 ^ w →
    1 ≤ (opEncode v w).length ∧ (opEncode v w).length ≤ w / 7 + 1 ∧ CanonicalSeq (opEncode v w) ∧
    opEncode 0 w = [0x00#8] ∧ (opEncode v w).length = canonicalLength v ∧
    v < 2 ^ (7 * canonicalLength v) ∧ (canonicalLength v = 1 ∨ 2 ^ (7 * (canonicalLength v - 1)) ≤ v) ∧
    seqValue (opEncode v w) = v

/-- The step level refines `encode` (the spec's own inference, R98): from any state with `E.busy = 0`, `ENC.START v` and
`M` internal steps emit exactly `encode(v, W)`, end with `E.busy = 0`, and touch nothing of DEC. -/
def Obligations.EncStepsRefineEncode : Prop :=
  ∀ (s : State) (v : Nat), s.enc.busy = false → v < 2 ^ s.cfg.W →
    ∃ t, StepsTo (s.cfg.W / 7 + 1 + 1) (schedule (encRun s.cfg.W) (present [v] s)) t ∧
      t.enc.busy = false ∧ t.seen.sink = s.seen.sink ++ opEncode v s.cfg.W ∧
      t.dec = s.dec ∧ t.seen.reports = s.seen.reports ∧ t.host = s.host ∧ t.cfg = s.cfg ∧ t.free = s.free

/-! ### The Decoder (42_decoder.md) -/

/-- The closed characterisation of `decode` (the spec's own inference, R111), from the call itself. Where the result
stands is the model's (notes/assumptions/10.md). -/
def Obligations.DecodeCallGivesClosedForm : Prop :=
  ∀ (bytes : List Byte) (w : Nat) (s : State), 7 ≤ w →
    exec (.decode bytes w) s =
      .next { s with seen := { silent s.seen with call := some (.decoded (closedDecode bytes w)) } }

/-- `DEC.CONT` in every phase (R112): its patterns, its effect, and that the shift loses no bit. -/
def Obligations.DecContByPhase : Prop :=
  (∀ tok : Token, tok &&& 0x180#9 = 0x080#9 → decodeWord (.token tok) = .ok (.decCont (tok.extractLsb' 0 7))) ∧
  ∀ (s : State) (p : Digit),
    (s.dec.st = .idle ∨ s.dec.st = .cont →
      (s.dec.acc + p.toNat ≤ 2 ^ (s.cfg.W - 7) - 1 →
        exec (.decCont p) s = .next { s with
          dec := { acc := (s.dec.acc + p.toNat) * 128, st := .cont, res := s.dec.res }, seen := silent s.seen } ∧
        (s.dec.acc + p.toNat) * 128 ≤ 2 ^ s.cfg.W - 128) ∧
      (2 ^ (s.cfg.W - 7) - 1 < s.dec.acc + p.toNat →
        exec (.decCont p) s = .next { s with
          dec := { acc := 0, st := .drain, res := ⟨.overflow, 0⟩ }, seen := reported (.err .overflow) s.seen })) ∧
    (s.dec.st = .term →
      exec (.decCont p) s = .next { s with
        dec := { acc := 0, st := .drain, res := ⟨.extraData, 0⟩ }, seen := reported (.err .extraData) s.seen }) ∧
    (s.dec.st = .drain → exec (.decCont p) s = .next { s with seen := silent s.seen })

/-- `DEC.TERM` in every phase (R113), in every state that meets R29: its patterns, its effect, and that the sum fits
and equals the bitwise OR. -/
def Obligations.DecTermByPhase : Prop :=
  (∀ tok : Token, tok &&& 0x180#9 = 0x000#9 → decodeWord (.token tok) = .ok (.decTerm (tok.extractLsb' 0 7))) ∧
  ∀ (s : State) (p : Digit), DecInv s.cfg.W s.dec →
    (s.dec.st = .idle ∨ s.dec.st = .cont →
      exec (.decTerm p) s = .next { s with
        dec := { acc := s.dec.acc + p.toNat, st := .term, res := s.dec.res }, seen := silent s.seen } ∧
      s.dec.acc + p.toNat = s.dec.acc ||| p.toNat ∧ s.dec.acc + p.toNat ≤ 2 ^ s.cfg.W - 1) ∧
    (s.dec.st = .term →
      exec (.decTerm p) s = .next { s with
        dec := { acc := 0, st := .drain, res := ⟨.extraData, 0⟩ }, seen := reported (.err .extraData) s.seen }) ∧
    (s.dec.st = .drain → exec (.decTerm p) s = .next { s with seen := silent s.seen })

/-- `DEC.END` in every phase (R114), in every state that meets R29: its patterns, the outcome, the result register, and
that DEC is always left in IDLE with `D.acc = 0`. -/
def Obligations.DecEndByPhase : Prop :=
  (∀ tok : Token, tok &&& 0x100#9 = 0x100#9 → decodeWord (.token tok) = .ok .decEnd) ∧
  ∀ s : State, DecInv s.cfg.W s.dec →
    (s.dec.st = .idle →
      exec .decEnd s = .next { s with
        dec := { acc := 0, st := .idle, res := ⟨.emptyInput, 0⟩ }, seen := reported (.err .emptyInput) s.seen }) ∧
    (s.dec.st = .cont →
      exec .decEnd s = .next { s with
        dec := { acc := 0, st := .idle, res := ⟨.unfinishedSequence, 0⟩ }
        seen := reported (.err .unfinishedSequence) s.seen }) ∧
    (s.dec.st = .term →
      exec .decEnd s = .next { s with
        dec := { acc := 0, st := .idle, res := ⟨.ok, s.dec.acc⟩ }, seen := reported (.ok s.dec.acc) s.seen }) ∧
    (s.dec.st = .drain →
      exec .decEnd s = .next { s with
        dec := { acc := 0, st := .idle, res := s.dec.res }, seen := silent s.seen })

/-- A wire byte of either class is consumed as the token that carries it: within a sequence a `CONT` byte appends its
digit to the accumulator and a `TERM` byte closes it, and in every phase each does what its token does. That the rows
`CONT` and `TERM` run so is the model's reading (notes/assumptions/12.md). -/
def Obligations.WireBytesAreConsumedAsTokens : Prop :=
  ∀ (p : Digit) (s : State),
    (s.dec.st = .idle ∨ s.dec.st = .cont → s.dec.acc + p.toNat ≤ 2 ^ (s.cfg.W - 7) - 1 →
      exec (.cont p) s = .next { s with
        dec := { acc := (s.dec.acc + p.toNat) * 128, st := .cont, res := s.dec.res }, seen := silent s.seen }) ∧
    (DecInv s.cfg.W s.dec → s.dec.st = .idle ∨ s.dec.st = .cont →
      exec (.term p) s = .next { s with
        dec := { acc := s.dec.acc + p.toNat, st := .term, res := s.dec.res }, seen := silent s.seen }) ∧
    (∃ t, exec (.cont p) s = .next t ∧ exec (.decCont p) s = .next t) ∧
    (∃ t, exec (.term p) s = .next t ∧ exec (.decTerm p) s = .next t) ∧
    (∀ (b : Byte) (ts : List Turn), step (schedule (⟨0#1, .wire b⟩ :: ts) s) = step (schedule (turnByte b :: ts) s))

/-- The arithmetic of the Decoder in the states that meet R29 (the spec's own inference, R119), of the operations its
steps use: (a) the sum carries out of no bit of the register and equals the bitwise OR; (b) the comparison is the one
with `2^(W-7) - 1`, true exactly when some bit `W-7` to `W-1` of the sum is 1; (c) it is false exactly when the shift
fits the register, and the shift is then multiplication by 128, at most `2^W - 128`. -/
def Obligations.DecoderArithmeticIsExact : Prop :=
  ∀ (c : Config) (d : Dec) (p : Digit), DecInv c.W d → d.st = .idle ∨ d.st = .cont →
    addPayload d.acc p = d.acc + p.toNat ∧ addPayload d.acc p = d.acc ||| p.toNat ∧
    toWidth c.W (addPayload d.acc p) = addPayload d.acc p ∧ addPayload d.acc p < 2 ^ c.W ∧
    (overflows c.W (addPayload d.acc p) = true ↔ 2 ^ (c.W - 7) - 1 < addPayload d.acc p) ∧
    (overflows c.W (addPayload d.acc p) = true ↔
      ∃ k, c.W - 7 ≤ k ∧ k ≤ c.W - 1 ∧ (addPayload d.acc p).testBit k = true) ∧
    (overflows c.W (addPayload d.acc p) = false ↔
      toWidth c.W (shiftDigit (addPayload d.acc p)) = shiftDigit (addPayload d.acc p)) ∧
    (overflows c.W (addPayload d.acc p) = false →
      shiftDigit (addPayload d.acc p) = addPayload d.acc p * 128 ∧
      shiftDigit (addPayload d.acc p) ≤ 2 ^ c.W - 128)

/-- The overflow check is exact on well-formed input (the spec's own inference, R120). -/
def Obligations.OverflowCheckIsExact : Prop :=
  ∀ (w : Nat) (s : List Byte), 7 ≤ w → WellFormedSeq s →
    (seqValue s ≤ 2 ^ w - 1 → opDecode s w = .ok (seqValue s)) ∧
    (2 ^ w - 1 < seqValue s → opDecode s w = .err .overflow)

/-- Non-canonical input is accepted (R121): `z` leading bytes `0x80` change nothing; any sequence that respects the
grammar and denotes `v` decodes as the canonical encoding of `v` does; the Encoder only ever produces that one. -/
def Obligations.NonCanonicalInputIsAccepted : Prop :=
  ∀ w v z : Nat, 7 ≤ w → v ≤ 2 ^ w - 1 →
    opDecode (List.replicate z 0x80#8 ++ opEncode v w) w = .ok v ∧
    (∀ s, WellFormedSeq s → seqValue s = v → opDecode s w = opDecode (opEncode v w) w) ∧
    CanonicalSeq (opEncode v w) ∧ seqValue (opEncode v w) = v

/-- There is no length limit (R122): leading `0x80` bytes change nothing however many, and the bound `M` holds from the
first non-zero payload on. -/
def Obligations.DecoderHasNoLengthLimit : Prop :=
  ∀ w : Nat, 7 ≤ w →
    (∀ z, opDecode (List.replicate z 0x80#8 ++ [0x01#8]) w = .ok 1) ∧
    (∀ z s, s ≠ [] → opDecode (List.replicate z 0x80#8 ++ s) w = opDecode s w) ∧
    (∀ s v, opDecode s w = .ok v → (s.dropWhile fun b => bytePayload b == 0#7).length ≤ w / 7 + 1)

/-- The width enters only through the overflow bound (R123): two widths at which a sequence does not overflow give the
same outcome, and the source's example differs. -/
def Obligations.OutcomeDependsOnWidthOnlyByOverflow : Prop :=
  (∀ (w w' : Nat) (s : List Byte), 7 ≤ w → 7 ≤ w' →
    opDecode s w ≠ .err .overflow → opDecode s w' ≠ .err .overflow → opDecode s w = opDecode s w') ∧
  opDecode [0x82#8, 0x01#8] 8 = .err .overflow ∧ opDecode [0x82#8, 0x01#8] 16 = .ok 257 ∧
  opDecode [0x82#8, 0x01#8] 32 = .ok 257 ∧ opDecode [0x82#8, 0x01#8] 64 = .ok 257

/-- Round trip of the calls (the spec's own inference, R125): what `encode` returns for `v`, `decode` turns back into
`Ok v`. -/
def Obligations.DecodeOfEncodeIsIdentity : Prop :=
  ∀ (v w : Nat) (s : State), 7 ≤ w → v < 2 ^ w →
    ∃ t u bytes, exec (.encode v w) s = .next t ∧ t.seen.call = some (.encoded bytes) ∧
      exec (.decode bytes w) t = .next u ∧ u.seen.call = some (.decoded (.ok v))

/-- The converse (the spec's own inference, R125 and R71): a sequence that decodes to `Ok v` is the encoding of `v` with
some number of bytes `0x80` before it, that number is unique, and it is 0 exactly for the canonical sequence. -/
def Obligations.OnlyPaddedEncodingsDecode : Prop :=
  ∀ (w v : Nat) (s : List Byte), 7 ≤ w → opDecode s w = .ok v →
    v ≤ 2 ^ w - 1 ∧ (∃! z : Nat, s = List.replicate z 0x80#8 ++ opEncode v w) ∧
    (s = opEncode v w ↔ CanonicalSeq s)

/-- The step level refines `decode` (the spec's own inference, R124): from IDLE with `D.acc = 0`, the bytes of any
sequence and one `END` give exactly one outcome, `decode` of the sequence; DEC ends in IDLE with `D.acc = 0` and `D.res`
holds the outcome; ENC is untouched. -/
def Obligations.DecStepsRefineDecode : Prop :=
  ∀ (s : State) (bytes : List Byte), s.dec.st = .idle → s.dec.acc = 0 →
    ∃ t, StepsTo (bytes.length + 1) (schedule (decSeq bytes) s) t ∧
      t.seen.reports = s.seen.reports ++ [opDecode bytes s.cfg.W] ∧ t.dec.st = .idle ∧ t.dec.acc = 0 ∧
      t.dec.res = resOf (opDecode bytes s.cfg.W) ∧ t.enc = s.enc ∧ t.seen.sink = s.seen.sink ∧ t.host = s.host ∧
      t.cfg = s.cfg ∧ t.free = s.free

/-- A token stream of several sequences, each closed by `END`, yields one outcome per `END`, in order, each a function
of its own sequence alone (the spec's own inference, R124 and R49 (b)). -/
def Obligations.OneOutcomePerSequenceInOrder : Prop :=
  ∀ (s : State) (seqs : List (List Byte)), s.dec.st = .idle → s.dec.acc = 0 →
    ∃ t, StepsTo (seqs.flatMap decSeq).length (schedule (seqs.flatMap decSeq) s) t ∧
      t.seen.reports = s.seen.reports ++ seqs.map (fun q => opDecode q s.cfg.W) ∧
      t.dec.st = .idle ∧ t.dec.acc = 0 ∧ t.enc = s.enc ∧ t.host = s.host

/-- Loopback (the spec's own inference, R168): every byte ENC emits for `v`, forwarded to a DEC in IDLE and closed by
`END`, gives exactly one outcome, `Ok v`. -/
def Obligations.LoopbackReportsTheValue : Prop :=
  ∀ (s : State) (v : Nat), s.enc.busy = false → s.dec.st = .idle → s.dec.acc = 0 → v < 2 ^ s.cfg.W →
    ∃ t bytes, StepsTo (loopRun v s.cfg.W).length (schedule (loopRun v s.cfg.W) (present [v] s)) t ∧
      t.seen.sink = s.seen.sink ++ bytes ∧
      loopRun v s.cfg.W = encRun s.cfg.W ++ decSeq bytes ∧
      t.seen.reports = s.seen.reports ++ [.ok v] ∧ t.dec.res = ⟨.ok, v⟩ ∧ Quiescent t

/-! ### Errors (60_exceptions.md) -/

/-- Which step in which phase reports which outcome, with its code and value (R140): there is no other way to an
outcome; the code `NONE` is written by `RESET` only; the codes 6 and 7 never stand on `d_status`. -/
def Obligations.OutcomesByStepAndPhase : Prop :=
  ∀ (i : Instr) (s t : State), exec i s = .next t →
    (t.seen.reports = s.seen.reports ++ [.err .emptyInput] → i = .decEnd ∧ s.dec.st = .idle ∧
      (outPorts t).dStatus = 2#3 ∧ (outPorts t).dValue = 0) ∧
    (t.seen.reports = s.seen.reports ++ [.err .unfinishedSequence] → i = .decEnd ∧ s.dec.st = .cont ∧
      (outPorts t).dStatus = 3#3 ∧ (outPorts t).dValue = 0) ∧
    (t.seen.reports = s.seen.reports ++ [.err .extraData] →
      (∃ p, i = .decCont p ∨ i = .decTerm p ∨ i = .cont p ∨ i = .term p) ∧ s.dec.st = .term ∧
      (outPorts t).dStatus = 4#3 ∧ (outPorts t).dValue = 0) ∧
    (t.seen.reports = s.seen.reports ++ [.err .overflow] →
      (∃ p : Digit, (i = .decCont p ∨ i = .cont p) ∧ lim s.cfg.W < s.dec.acc + p.toNat) ∧
      (s.dec.st = .idle ∨ s.dec.st = .cont) ∧ (outPorts t).dStatus = 5#3 ∧ (outPorts t).dValue = 0) ∧
    (∀ v, t.seen.reports = s.seen.reports ++ [.ok v] → i = .decEnd ∧ s.dec.st = .term ∧ v = s.dec.acc ∧
      (outPorts t).dStatus = 1#3 ∧ (outPorts t).dValue = v) ∧
    ((outPorts t).dStatus = 0#3 → (outPorts s).dStatus ≠ 0#3 → i = .reset ∧ (outPorts t).dValue = 0) ∧
    (outPorts t).dStatus.toNat ≤ 5

/-- Error entry (R149): a step that reports error `k` does exactly this: the report, `D.res <- (code(k), 0)`,
`D.acc <- 0`, and DRAIN after a byte, IDLE after `END`; nothing else changes, ENC included. -/
def Obligations.ErrorEntryDoesExactlyThis : Prop :=
  ∀ (i : Instr) (s t : State) (k : ErrorKind), exec i s = .next t →
    t.seen.reports = s.seen.reports ++ [.err k] →
    t = { s with
      dec := { acc := 0, st := if i = .decEnd then .idle else .drain, res := ⟨errorStatus k, 0⟩ }
      seen := reported (.err k) s.seen } ∧
    (i = .decEnd ↔ k = .emptyInput ∨ k = .unfinishedSequence)

/-- Draining and return (R150): after an early error every further byte is discarded without effect or report, `END`
returns to IDLE silently, and the next sequence decodes as if nothing had happened; ENC, the sink, the host's side, the
width and the free-value counter stay as they were throughout. -/
def Obligations.DrainDiscardsThenNextSequenceDecodes : Prop :=
  ∀ (s : State) (junk bytes : List Byte), s.dec.st = .drain → s.dec.acc = 0 →
    (∃ t, StepsTo (junk.length + 1) (schedule (decSeq junk) s) t ∧ t.dec = { s.dec with st := .idle } ∧
      t.seen.reports = s.seen.reports ∧ t.enc = s.enc ∧ t.seen.sink = s.seen.sink ∧ t.host = s.host ∧
      t.cfg = s.cfg ∧ t.free = s.free) ∧
    (∃ t, StepsTo (junk.length + 1 + (bytes.length + 1)) (schedule (decSeq junk ++ decSeq bytes) s) t ∧
      t.seen.reports = s.seen.reports ++ [opDecode bytes s.cfg.W] ∧ t.dec.st = .idle ∧ t.dec.acc = 0 ∧
      t.dec.res = resOf (opDecode bytes s.cfg.W) ∧ t.enc = s.enc ∧ t.seen.sink = s.seen.sink ∧ t.host = s.host ∧
      t.cfg = s.cfg ∧ t.free = s.free)

/-! ### Reset, hold, the end of a run (70_reset_and_hazards.md, 10_state.md) -/

/-- The whole next state of `RESET` in the model: the fields the spec gives; the three unspecified fields at some values
within their widths (the cut to the widths is the model's, notes/assumptions/4.md); nothing emitted or reported; the
model's counter of free values one up (notes/assumptions/5.md); everything else as before. What is offered in the same
turn goes with the turn, and a pending command stays pending (the model's reading, notes/assumptions/16.md). What the
spec itself says of `RESET` is stated in ResetDoesWhatTheRuleSays. -/
def Obligations.ResetGivesTheResetValues : Prop :=
  decodeWord (.rst 1#1) = .ok .reset ∧
  (∀ s : State, ∃ (v i : Nat) (b : Bool), v < 2 ^ s.cfg.W ∧ i < 2 ^ idxBits s.cfg.W ∧
    exec .reset s = .next { s with
      enc := { val := v, idx := i, started := b, busy := false }
      dec := { acc := 0, st := .idle, res := ⟨.none, 0⟩ }
      seen := silent s.seen, free := s.free + 1 }) ∧
  (∀ (s : State) (o : Offer) (ts : List Turn), s.host.sched = ⟨1#1, o⟩ :: ts →
    step s = exec .reset { s with host := { s.host with sched := ts } })

/-- After reset five fields have the values given, in the machine's first state and after every `RESET` step; the three
a reset leaves unspecified are read by no step while `E.busy = 0`, and `ENC.START` writes all three (R36). -/
def Obligations.UnspecifiedFieldsAreNeverRead : Prop :=
  (∀ c : Config, (State.resetAt c).enc.busy = false ∧ (State.resetAt c).dec = ⟨0, .idle, ⟨.none, 0⟩⟩) ∧
  (∀ s : State, ∃ t, exec .reset s = .next t ∧ t.enc.busy = false ∧ t.dec = ⟨0, .idle, ⟨.none, 0⟩⟩) ∧
  (∀ s s' t : State, s.enc.busy = false → AgreeButUnspecified s s' → step s = .next t →
    ∃ t', step s' = .next t' ∧ AgreeButUnspecified t t' ∧ (t.enc.busy = true → t' = t))

/-- Reset in mid-operation (R161): the bytes emitted so far stay and no more come, no outcome is reported for the
abandoned sequence, and the next token is taken as the first of a new sequence. -/
def Obligations.ResetAbandonsBothOperations : Prop :=
  ∀ (s : State) (n : Nat) (bytes : List Byte),
    (∃ t, StepsTo (n + 1) (schedule (turnReset :: List.replicate n turnEnc) s) t ∧
      t.seen.sink = s.seen.sink ∧ t.seen.reports = s.seen.reports ∧ Quiescent t) ∧
    (∃ t, StepsTo (bytes.length + 2) (schedule (turnReset :: decSeq bytes) s) t ∧
      t.seen.sink = s.seen.sink ∧ t.seen.reports = s.seen.reports ++ [opDecode bytes s.cfg.W] ∧ Quiescent t)

/-- The hold in the host's list of pending commands: `ENC.START` presented while busy is not accepted and has no effect;
it stays pending; ENC's own steps lift the hold within `M`, a RESET at once; then it is accepted and leaves the list.
That a held command stays in the list, also through a RESET, and leaves it on acceptance is the model's
(notes/assumptions/8.md). What the spec itself says of the hold is stated in HeldStartHasNoEffectUntilLifted. -/
def Obligations.StartIsHeldWhileBusy : Prop :=
  ∀ (s : State) (v : Nat) (cs : List Nat), s.enc.busy = true → s.host.cmds = v :: cs → v < 2 ^ s.cfg.W →
    step (schedule [turnStart] s) = .next { s with seen := silent s.seen } ∧
    (EncInv s.cfg.W s.enc → ∃ n t u, n ≤ s.cfg.W / 7 + 1 ∧
      StepsTo n (schedule (List.replicate n turnEnc) s) t ∧ t.enc.busy = false ∧ t.host = s.host ∧
      step (schedule [turnStart] t) = .next u ∧
      u.enc = ⟨v, s.cfg.W / 7, false, true⟩ ∧ u.host = { s.host with cmds := cs }) ∧
    (∃ t u, step (schedule [turnReset] s) = .next t ∧ t.enc.busy = false ∧ t.host = s.host ∧
      step (schedule [turnStart] t) = .next u ∧
      u.enc = ⟨v, s.cfg.W / 7, false, true⟩ ∧ u.host = { s.host with cmds := cs })

/-- The result register's lifetime (R167): `D.res` changes only in a step that reports or in RESET, and then shows that
outcome on `d_status` and `d_value`. From IDLE the earliest report is the first token's: an `END`, with `EmptyInput`,
or an overflowing first byte, which exists for `W <= 13` only. -/
def Obligations.ResultRegisterHoldsTheLatestOutcome : Prop :=
  (∀ s t : State, step s = .next t → offered s ≠ some .reset →
    (t.seen.dDone = false → t.dec.res = s.dec.res ∧ (outPorts t).dStatus = (outPorts s).dStatus ∧
      (outPorts t).dValue = (outPorts s).dValue) ∧
    (t.seen.dDone = true → ∃ o, t.seen.reports = s.seen.reports ++ [o] ∧ t.dec.res = resOf o ∧
      (outPorts t).dStatus = statusCode (resOf o).status ∧ (outPorts t).dValue = (resOf o).value)) ∧
  (∀ (s : State) (tok : Token), s.dec.st = .idle → s.dec.acc = 0 →
    ∃ t, exec (decodeToken tok) s = .next t ∧
      (t.seen.dDone = true ↔
        decodeToken tok = .decEnd ∨ ∃ p : Digit, decodeToken tok = .decCont p ∧ 2 ^ (s.cfg.W - 7) - 1 < p.toNat)) ∧
  (∀ c : Config, (∃ p : Digit, 2 ^ (c.W - 7) - 1 < p.toNat) ↔ c.W ≤ 13)

/-- The end of a run (R163): a quiescent block with no event left takes no step that changes anything, and while
`E.busy = 1` it still has a step even with no event left. That ENC goes on when the schedule is empty is the model's
default (notes/assumptions/6.md). -/
def Obligations.QuiescentBlockRests : Prop :=
  (∀ s : State, Quiescent s → s.host = ⟨[], []⟩ → step s = .next { s with seen := silent s.seen }) ∧
  (∀ s : State, s.enc.busy = true → s.host.sched = [] →
    ∃ i t, (i = .encDigit ∨ i = .encTerm) ∧ offered s = some i ∧ step s = .next t ∧ exec i s = .next t ∧
      (s.enc.idx ≠ 0 → t.enc.idx = s.enc.idx - 1 ∧ t.enc.busy = true) ∧ (s.enc.idx = 0 → t.enc.busy = false))

/-! ### The rules on RESET, the hold and the ports in the spec's own words -/

/-- The status ports are direct copies of state (R33), with the codes of the phases and of the status register on
`d_phase` and `d_status`; nothing configures the block at run time. -/
def Obligations.StatusPortsCopyState : Prop :=
  ∀ s : State,
    (outPorts s).eBusy = s.enc.busy ∧ (outPorts s).eReady = !s.enc.busy ∧
    (s.dec.st = .idle → (outPorts s).dPhase = 0#2) ∧ (s.dec.st = .cont → (outPorts s).dPhase = 1#2) ∧
    (s.dec.st = .term → (outPorts s).dPhase = 2#2) ∧ (s.dec.st = .drain → (outPorts s).dPhase = 3#2) ∧
    (s.dec.res.status = .none → (outPorts s).dStatus = 0#3) ∧ (s.dec.res.status = .ok → (outPorts s).dStatus = 1#3) ∧
    (s.dec.res.status = .emptyInput → (outPorts s).dStatus = 2#3) ∧
    (s.dec.res.status = .unfinishedSequence → (outPorts s).dStatus = 3#3) ∧
    (s.dec.res.status = .extraData → (outPorts s).dStatus = 4#3) ∧
    (s.dec.res.status = .overflow → (outPorts s).dStatus = 5#3) ∧
    (outPorts s).dValue = s.dec.res.value ∧ (outPorts s).mBytes = s.cfg.W / 7 + 1 ∧
    (∀ t, step s = .next t → t.cfg = s.cfg)

/-- `RESET` (R160): the pin `rst = 1`; whatever is offered at the same time, the step is RESET; from every state it
completes with `E.busy = 0`, `D.st = IDLE`, `D.acc = 0`, `D.res = (NONE, 0)`, emits and reports nothing and leaves
`m_bytes` as it was. Of `E.val`, `E.idx` and `E.started`, which become unspecified, it says nothing. -/
def Obligations.ResetDoesWhatTheRuleSays : Prop :=
  decodeWord (.rst 1#1) = .ok .reset ∧
  (∀ s : State, (currentTurn s).rst = 1#1 → offered s = some .reset ∧ step s = exec .reset (takeTurn s)) ∧
  (∀ s : State, ∃ t, exec .reset s = .next t ∧ t.enc.busy = false ∧ t.dec.st = .idle ∧ t.dec.acc = 0 ∧
    t.dec.res.status = .none ∧ t.dec.res.value = 0 ∧
    t.seen.sink = s.seen.sink ∧ t.seen.reports = s.seen.reports ∧
    (outPorts t).eOutValid = false ∧ (outPorts t).dDone = false ∧ (outPorts t).mBytes = (outPorts s).mBytes)

/-- The hold (R164): `ENC.START` is accepted only while `e_ready = 1`; while `E.busy = 1` it changes no register, emits
nothing and reports nothing; the hold is lifted by ENC's own internal steps, within `M` of them, the last being
`ENC.TERM`, or by RESET; then the command is accepted. -/
def Obligations.HeldStartHasNoEffectUntilLifted : Prop :=
  ∀ (s : State) (v : Nat), s.enc.busy = true → v < 2 ^ s.cfg.W →
    (outPorts s).eReady = false ∧
    exec (.encStart v) s = .next { s with seen := silent s.seen } ∧
    (EncInv s.cfg.W s.enc → ∃ n r t u, n + 1 ≤ s.cfg.W / 7 + 1 ∧
      StepsTo n (schedule (List.replicate n turnEnc) s) r ∧ r.enc.busy = true ∧
      exec .encTerm r = .next t ∧ t.enc.busy = false ∧ (outPorts t).eReady = true ∧
      exec (.encStart v) t = .next u ∧ u.enc = ⟨v, s.cfg.W / 7, false, true⟩) ∧
    (∃ t u, exec .reset s = .next t ∧ (outPorts t).eReady = true ∧
      exec (.encStart v) t = .next u ∧ u.enc = ⟨v, s.cfg.W / 7, false, true⟩)
end

