-- ==== Sys2Proof/Laws/Widths.lean ====
section
/-! SUPPORT. The constants of an instance as plain arithmetic. -/

namespace Sys2Proof.Machine

open Sys2Proof

theorem Config.seven_le_W (c : Config) : 7 ≤ c.W := Nat.le_add_left 7 c.surplus

theorem maxValue_lt (w : Nat) : maxValue w < 2 ^ w := Nat.sub_lt (Nat.two_pow_pos w) Nat.one_pos

/-- A number exceeds `MAXV` exactly when it does not fit `w` bits. -/
theorem maxValue_lt_iff (w v : Nat) : maxValue w < v ↔ 2 ^ w ≤ v := by
  have := Nat.two_pow_pos w
  unfold maxValue; omega

theorem two_pow_eq_mul_128 {w : Nat} (hw : 7 ≤ w) : 2 ^ w = 2 ^ (w - 7) * 128 := by
  rw [show (128 : Nat) = 2 ^ 7 from rfl, ← Nat.pow_add, Nat.sub_add_cancel hw]

/-- `LIM = 2^(W-7) - 1` (R8). -/
theorem lim_eq {w : Nat} (hw : 7 ≤ w) : lim w = 2 ^ (w - 7) - 1 := by
  have hp := Nat.two_pow_pos (w - 7)
  rw [lim, maxValue, Nat.shiftRight_eq_div_pow, two_pow_eq_mul_128 hw]; omega

/-- The overflow test is the test that the shifted accumulator needs more than `w` bits. -/
theorem lim_lt_iff {w : Nat} (hw : 7 ≤ w) (a : Nat) : lim w < a ↔ 2 ^ w ≤ 128 * a := by
  have hp := Nat.two_pow_pos (w - 7)
  rw [lim_eq hw, two_pow_eq_mul_128 hw]; omega

/-- `LIM * 128 = 2^W - 128` (R29). -/
theorem lim_mul_128 {w : Nat} (hw : 7 ≤ w) : lim w * 128 = 2 ^ w - 128 := by
  rw [lim_eq hw, two_pow_eq_mul_128 hw]; omega

theorem one_le_maxBytes_sub_one {w : Nat} (hw : 7 ≤ w) : 1 ≤ maxBytes w - 1 := by
  unfold maxBytes; omega

theorem clog2_of_two_le {n : Nat} (h : 2 ≤ n) : clog2 n = Nat.log2 (n - 1) + 1 := by
  unfold clog2; exact if_neg (by omega)

/-- The start value of `E.idx` fits its register (R22). -/
theorem maxBytes_sub_one_lt {w : Nat} (hw : 7 ≤ w) : maxBytes w - 1 < 2 ^ idxBits w := by
  rw [idxBits, clog2_of_two_le (by unfold maxBytes; omega)]
  exact Nat.lt_log2_self

theorem weight_pos (i : Nat) : 0 < weight i := Nat.two_pow_pos _

theorem weight_succ (i : Nat) : weight (i + 1) = weight i * 128 := by
  rw [weight, weight, show (128 : Nat) = 2 ^ 7 from rfl, ← Nat.pow_add]; ring_nf

theorem weight_eq (i : Nat) : weight i = 128 ^ i := by
  rw [weight, Nat.pow_mul]

/-- What is left after a digit is the remainder modulo its weight (R96). -/
theorem afterDigit_eq_mod (rem i : Nat) : afterDigit rem i = rem % weight i := by
  rw [afterDigit, topDigit, Nat.mod_def, Nat.mul_comm]

theorem overflows_iff (w a : Nat) : overflows w a = true ↔ lim w < a := by
  simp only [overflows, decide_eq_true_eq]

theorem digitEmits_iff (d : Nat) (b : Bool) : digitEmits d b = true ↔ d ≠ 0 ∨ b = true := by
  simp [digitEmits]

/-- A register keeps all of a number that fits it. -/
theorem toWidth_of_lt {w v : Nat} (h : v < 2 ^ w) : toWidth w v = v := Nat.mod_eq_of_lt h

theorem shiftDigit_eq (a : Nat) : shiftDigit a = a * 128 := by
  rw [shiftDigit, Nat.shiftLeft_eq]

end Sys2Proof.Machine
end

