-- ==== Sys2Proof/Laws/Codec.lean ====
section
/-! SUPPORT. The operation level: what the two loops of Machine/Codec.lean do, by induction once. -/

namespace Sys2Proof.Machine

open Sys2Proof

/-! ### Bytes -/

theorem byte_split (b : Byte) : b.toNat = (if byteContinues b then 128 else 0) + (bytePayload b).toNat := by
  revert b; decide

theorem bytePayload_lt (b : Byte) : (bytePayload b).toNat < 128 := (bytePayload b).isLt

theorem contByte_toNat {d : Nat} (h : d < 128) : (contByte d).toNat = 128 + d := by
  interval_cases d <;> rfl

theorem contByte_continues {d : Nat} (h : d < 128) : byteContinues (contByte d) = true := by
  interval_cases d <;> rfl

theorem contByte_payload {d : Nat} (h : d < 128) : (bytePayload (contByte d)).toNat = d := by
  interval_cases d <;> rfl

theorem termByte_toNat (r : Nat) : (termByte r).toNat = r % 128 := by
  rw [termByte, BitVec.toNat_ofNat]; omega

theorem termByte_continues (r : Nat) : byteContinues (termByte r) = false := by
  have h := byte_split (termByte r)
  have := bytePayload_lt (termByte r)
  rw [termByte_toNat] at h
  cases hc : byteContinues (termByte r) with
  | false => rfl
  | true => rw [hc] at h; simp at h; omega

theorem termByte_payload (r : Nat) : (bytePayload (termByte r)).toNat = r % 128 := by
  have h := byte_split (termByte r)
  rw [termByte_continues, termByte_toNat] at h
  simpa using h.symm

/-- A byte is determined by its flag and its payload. -/
theorem byte_ext {a b : Byte} (hc : byteContinues a = byteContinues b)
    (hp : (bytePayload a).toNat = (bytePayload b).toNat) : a = b :=
  BitVec.eq_of_toNat_eq (by rw [byte_split a, byte_split b, hc, hp])

/-! ### The meaning of a sequence -/

@[simp] theorem seqValue_nil : seqValue [] = 0 := rfl

@[simp] theorem seqValue_cons (b : Byte) (s : List Byte) :
    seqValue (b :: s) = (bytePayload b).toNat * 128 ^ s.length + seqValue s := rfl

theorem seqValue_append (s t : List Byte) : seqValue (s ++ t) = seqValue s * 128 ^ t.length + seqValue t := by
  induction s with
  | nil => simp
  | cons b s ih => simp only [List.cons_append, seqValue_cons, ih, List.length_append, pow_add]; ring

theorem seqValue_lt (s : List Byte) : seqValue s < 128 ^ s.length := by
  induction s with
  | nil => simp
  | cons b s ih =>
    have hb := bytePayload_lt b
    have : ((bytePayload b).toNat + 1) * 128 ^ s.length ≤ 128 * 128 ^ s.length := Nat.mul_le_mul_right _ hb
    simp only [seqValue_cons, List.length_cons, pow_succ]
    nlinarith

/-! ### The Decoder's loop -/

theorem decodeFrom_cont {w acc : Nat} {b : Byte} (s : List Byte) (hb : byteContinues b = true) :
    decodeFrom w acc (b :: s) =
      if lim w < acc + (bytePayload b).toNat then .err .overflow
      else decodeFrom w ((acc + (bytePayload b).toNat) * 128) s := by
  simp only [decodeFrom, hb, if_true, overflows_iff, addPayload, shiftDigit_eq]

theorem decodeFrom_term {w acc : Nat} {b : Byte} (s : List Byte) (hb : byteContinues b = false) :
    decodeFrom w acc (b :: s) = if s = [] then .ok (acc + (bytePayload b).toNat) else .err .extraData := by
  cases s <;> simp [decodeFrom, hb, addPayload]

/-- Continuation bytes overflow exactly when the value of all of them exceeds `LIM`; else the loop goes on from that
value times 128 (R111). -/
theorem decodeFrom_prefix (w : Nat) (s : List Byte) (pre : List Byte) :
    ∀ acc, (∀ b ∈ pre, byteContinues b = true) →
      decodeFrom w (acc * 128) (pre ++ s) =
        if pre ≠ [] ∧ lim w < acc * 128 ^ pre.length + seqValue pre then .err .overflow
        else decodeFrom w ((acc * 128 ^ pre.length + seqValue pre) * 128) s := by
  induction pre with
  | nil => intro acc _; simp
  | cons b pre ih =>
    intro acc h
    have hb : byteContinues b = true := h b (by simp)
    have hpre : ∀ x ∈ pre, byteContinues x = true := fun x hx => h x (by simp [hx])
    rw [List.cons_append, decodeFrom_cont _ hb, ih _ hpre]
    have hval : acc * 128 ^ (b :: pre).length + seqValue (b :: pre) =
        (acc * 128 + (bytePayload b).toNat) * 128 ^ pre.length + seqValue pre := by
      simp only [List.length_cons, seqValue_cons, pow_succ]; ring
    rw [hval]
    have hle : acc * 128 + (bytePayload b).toNat ≤
        (acc * 128 + (bytePayload b).toNat) * 128 ^ pre.length + seqValue pre :=
      le_trans (Nat.le_mul_of_pos_right _ (by positivity)) (Nat.le_add_right _ _)
    by_cases h1 : lim w < acc * 128 + (bytePayload b).toNat
    · rw [if_pos h1, if_pos ⟨by simp, by omega⟩]
    · rw [if_neg h1]
      cases pre with
      | nil =>
        have h2 : ¬ lim w < (acc * 128 + (bytePayload b).toNat) * 128 ^ ([] : List Byte).length + seqValue [] := by
          simpa using h1
        rw [if_neg (by simp), if_neg (fun hc => h2 hc.2)]
      | cons c pre => simp

/-- `decode` of a non-empty sequence is the loop from 0 (R110). -/
theorem opDecode_of_ne_nil {s : List Byte} (w : Nat) (h : s ≠ []) : opDecode s w = decodeFrom w 0 s := by
  cases s with
  | nil => exact absurd rfl h
  | cons b s => rfl

/-- Continuation bytes, then a terminal byte, then anything (R111, the three cases with a terminal byte). -/
theorem opDecode_prefix_term (w : Nat) {pre : List Byte} {t : Byte} (rest : List Byte)
    (hpre : ∀ b ∈ pre, byteContinues b = true) (ht : byteContinues t = false) :
    opDecode (pre ++ t :: rest) w =
      if lim w < seqValue pre then .err .overflow
      else if rest = [] then .ok (seqValue (pre ++ [t])) else .err .extraData := by
  rw [opDecode_of_ne_nil w (by simp)]
  have h := decodeFrom_prefix w (t :: rest) pre 0 hpre
  simp only [Nat.zero_mul, Nat.zero_add] at h
  rw [h, decodeFrom_term _ ht, seqValue_append]
  cases pre with
  | nil => simp
  | cons b pre => simp [seqValue]

/-- Continuation bytes only (R111, the case without a terminal byte). -/
theorem opDecode_prefix_only (w : Nat) {pre : List Byte} (hne : pre ≠ []) (hpre : ∀ b ∈ pre, byteContinues b = true) :
    opDecode pre w = if lim w < seqValue pre then .err .overflow else .err .unfinishedSequence := by
  rw [opDecode_of_ne_nil w hne]
  have h := decodeFrom_prefix w [] pre 0 hpre
  simp only [Nat.zero_mul, Nat.zero_add, List.append_nil] at h
  rw [h]
  simp [hne, decodeFrom]

/-- A sequence is its continuation prefix, or that followed by its first terminal byte and a rest (R111). -/
theorem contPrefix_split (s : List Byte) :
    (∀ b ∈ contPrefix s, byteContinues b = true) ∧
      (s = contPrefix s ∨ ∃ t rest, byteContinues t = false ∧ s = contPrefix s ++ t :: rest) := by
  refine ⟨fun b hb => ?_, ?_⟩
  · exact List.mem_takeWhile_imp hb
  · have h := List.takeWhile_append_dropWhile (p := byteContinues) (l := s)
    cases hd : s.dropWhile byteContinues with
    | nil => left; rw [hd, List.append_nil] at h; exact h.symm
    | cons t rest =>
      right
      refine ⟨t, rest, ?_, by rw [hd] at h; exact h.symm⟩
      have := List.head_dropWhile_not byteContinues (l := s) (by rw [hd]; simp)
      simpa [hd] using this

/-! ### The Encoder's loop -/

/-- A value below the weight of the next position takes a fixed number of digits once a byte has been emitted: the
bytes, their flags and what they denote (R91, R96). -/
theorem encodeFrom_started (i : Nat) : ∀ rem, rem < weight (i + 1) →
    (encodeFrom i rem true).length = i + 1 ∧ seqValue (encodeFrom i rem true) = rem ∧
      ∃ init last, encodeFrom i rem true = init ++ [last] ∧ (∀ b ∈ init, byteContinues b = true) ∧
        byteContinues last = false := by
  induction i with
  | zero =>
    intro rem h
    have h' : rem < 128 := by simpa [weight] using h
    refine ⟨rfl, ?_, [], termByte rem, rfl, by simp, termByte_continues rem⟩
    simp [encodeFrom, termByte_payload, Nat.mod_eq_of_lt h']
  | succ i ih =>
    intro rem h
    have hd : topDigit rem (i + 1) < 128 := by
      rw [topDigit, Nat.div_lt_iff_lt_mul (weight_pos _), Nat.mul_comm, ← weight_succ]; exact h
    have hr : afterDigit rem (i + 1) < weight (i + 1) := by
      rw [afterDigit_eq_mod]; exact Nat.mod_lt _ (weight_pos _)
    obtain ⟨hl, hv, init, last, he, hi, hla⟩ := ih _ hr
    have hunf : encodeFrom (i + 1) rem true =
        contByte (topDigit rem (i + 1)) :: encodeFrom i (afterDigit rem (i + 1)) true := by
      simp [encodeFrom, digitEmits]
    refine ⟨by rw [hunf, List.length_cons, hl], ?_, contByte (topDigit rem (i + 1)) :: init, last, ?_, ?_, hla⟩
    · rw [hunf, seqValue_cons, hl, hv, contByte_payload hd, ← weight_eq, afterDigit_eq_mod, topDigit]
      exact Nat.div_add_mod' rem _
    · rw [hunf, he]; rfl
    · intro b hb
      rcases List.mem_cons.mp hb with rfl | hb
      · exact contByte_continues hd
      · exact hi b hb

/-- Leading zero groups are skipped: below the weight of a position the loop starts one position lower (R91). -/
theorem encodeFrom_skip {i rem : Nat} (h : rem < weight (i + 1)) :
    encodeFrom (i + 1) rem false = encodeFrom i rem false := by
  have : topDigit rem (i + 1) = 0 := Nat.div_eq_of_lt h
  simp [encodeFrom, digitEmits, this]

/-- At a position with a non-zero digit the loop starts to emit (R91). -/
theorem encodeFrom_start {i rem : Nat} (h : weight (i + 1) ≤ rem) :
    encodeFrom (i + 1) rem false = encodeFrom (i + 1) rem true := by
  have : topDigit rem (i + 1) ≠ 0 := (Nat.div_pos h (weight_pos _)).ne'
  simp [encodeFrom, digitEmits, this]

/-- The loop from nothing emitted: it starts at the position `k` of the value's top digit (R91). -/
theorem encodeFrom_eq_started (i rem : Nat) (h : rem < weight (i + 1)) :
    ∃ k, k ≤ i ∧ rem < weight (k + 1) ∧ (k = 0 ∨ weight k ≤ rem) ∧
      encodeFrom i rem false = encodeFrom k rem true := by
  induction i with
  | zero => exact ⟨0, le_refl _, h, .inl rfl, rfl⟩
  | succ i ih =>
    by_cases hw : weight (i + 1) ≤ rem
    · exact ⟨i + 1, le_refl _, h, .inr hw, encodeFrom_start hw⟩
    · obtain ⟨k, hk, h1, h2, h3⟩ := ih (by omega)
      exact ⟨k, by omega, h1, h2, by rw [encodeFrom_skip (by omega), h3]⟩

/-- The weight of the first position above the Value covers it (R82 (a)). -/
theorem lt_weight_of_lt_two_pow {w v : Nat} (h : v < 2 ^ w) : v < weight (maxBytes w - 1 + 1) := by
  refine lt_of_lt_of_le h (Nat.pow_le_pow_right (by decide) ?_)
  unfold maxBytes; omega

/-- `encode` starts at the position of the Value's top digit and emits from there on (R91). -/
theorem opEncode_eq_started {w v : Nat} (h : v < 2 ^ w) :
    ∃ k, k ≤ maxBytes w - 1 ∧ v < weight (k + 1) ∧ (k = 0 ∨ weight k ≤ v) ∧ opEncode v w = encodeFrom k v true :=
  encodeFrom_eq_started _ _ (lt_weight_of_lt_two_pow h)

end Sys2Proof.Machine
end

