-- ==== Sys2Proof/Laws/State.lean ====
section
/-! SUPPORT. One lemma per field per named update of the state, true by rfl, so that no later proof unfolds a record
update. -/

namespace Sys2Proof.Machine

open Sys2Proof

/-! ### quiet -/

@[simp] theorem quiet_cfg (s : State) : (quiet s).cfg = s.cfg := rfl
@[simp] theorem quiet_enc (s : State) : (quiet s).enc = s.enc := rfl
@[simp] theorem quiet_dec (s : State) : (quiet s).dec = s.dec := rfl
@[simp] theorem quiet_host (s : State) : (quiet s).host = s.host := rfl
@[simp] theorem quiet_free (s : State) : (quiet s).free = s.free := rfl
@[simp] theorem quiet_seen_sink (s : State) : (quiet s).seen.sink = s.seen.sink := rfl
@[simp] theorem quiet_seen_reports (s : State) : (quiet s).seen.reports = s.seen.reports := rfl
@[simp] theorem quiet_seen_callSink (s : State) : (quiet s).seen.callSink = s.seen.callSink := rfl
@[simp] theorem quiet_seen_call (s : State) : (quiet s).seen.call = s.seen.call := rfl
@[simp] theorem quiet_seen_eOut (s : State) : (quiet s).seen.eOut = none := rfl
@[simp] theorem quiet_seen_dDone (s : State) : (quiet s).seen.dDone = false := rfl

/-! ### setEnc -/

@[simp] theorem setEnc_cfg (e : Enc) (s : State) : (setEnc e s).cfg = s.cfg := rfl
@[simp] theorem setEnc_dec (e : Enc) (s : State) : (setEnc e s).dec = s.dec := rfl
@[simp] theorem setEnc_host (e : Enc) (s : State) : (setEnc e s).host = s.host := rfl
@[simp] theorem setEnc_free (e : Enc) (s : State) : (setEnc e s).free = s.free := rfl
@[simp] theorem setEnc_seen (e : Enc) (s : State) : (setEnc e s).seen = s.seen := rfl
@[simp] theorem setEnc_enc (e : Enc) (s : State) : (setEnc e s).enc = e := rfl

/-! ### setDec -/

@[simp] theorem setDec_cfg (d : Dec) (s : State) : (setDec d s).cfg = s.cfg := rfl
@[simp] theorem setDec_enc (d : Dec) (s : State) : (setDec d s).enc = s.enc := rfl
@[simp] theorem setDec_host (d : Dec) (s : State) : (setDec d s).host = s.host := rfl
@[simp] theorem setDec_free (d : Dec) (s : State) : (setDec d s).free = s.free := rfl
@[simp] theorem setDec_seen (d : Dec) (s : State) : (setDec d s).seen = s.seen := rfl
@[simp] theorem setDec_dec (d : Dec) (s : State) : (setDec d s).dec = d := rfl

/-! ### emit -/

@[simp] theorem emit_cfg (b : Byte) (s : State) : (emit b s).cfg = s.cfg := rfl
@[simp] theorem emit_enc (b : Byte) (s : State) : (emit b s).enc = s.enc := rfl
@[simp] theorem emit_dec (b : Byte) (s : State) : (emit b s).dec = s.dec := rfl
@[simp] theorem emit_host (b : Byte) (s : State) : (emit b s).host = s.host := rfl
@[simp] theorem emit_free (b : Byte) (s : State) : (emit b s).free = s.free := rfl
@[simp] theorem emit_seen_reports (b : Byte) (s : State) : (emit b s).seen.reports = s.seen.reports := rfl
@[simp] theorem emit_seen_dDone (b : Byte) (s : State) : (emit b s).seen.dDone = s.seen.dDone := rfl
@[simp] theorem emit_seen_callSink (b : Byte) (s : State) : (emit b s).seen.callSink = s.seen.callSink := rfl
@[simp] theorem emit_seen_call (b : Byte) (s : State) : (emit b s).seen.call = s.seen.call := rfl
@[simp] theorem emit_seen_sink (b : Byte) (s : State) : (emit b s).seen.sink = s.seen.sink ++ [b] := rfl
@[simp] theorem emit_seen_eOut (b : Byte) (s : State) : (emit b s).seen.eOut = some b := rfl

/-! ### report -/

@[simp] theorem report_cfg (o : DecOutcome) (s : State) : (report o s).cfg = s.cfg := rfl
@[simp] theorem report_enc (o : DecOutcome) (s : State) : (report o s).enc = s.enc := rfl
@[simp] theorem report_host (o : DecOutcome) (s : State) : (report o s).host = s.host := rfl
@[simp] theorem report_free (o : DecOutcome) (s : State) : (report o s).free = s.free := rfl
@[simp] theorem report_seen_sink (o : DecOutcome) (s : State) : (report o s).seen.sink = s.seen.sink := rfl
@[simp] theorem report_seen_eOut (o : DecOutcome) (s : State) : (report o s).seen.eOut = s.seen.eOut := rfl
@[simp] theorem report_seen_callSink (o : DecOutcome) (s : State) : (report o s).seen.callSink = s.seen.callSink := rfl
@[simp] theorem report_seen_call (o : DecOutcome) (s : State) : (report o s).seen.call = s.seen.call := rfl
@[simp] theorem report_dec_acc (o : DecOutcome) (s : State) : (report o s).dec.acc = s.dec.acc := rfl
@[simp] theorem report_dec_st (o : DecOutcome) (s : State) : (report o s).dec.st = s.dec.st := rfl
@[simp] theorem report_dec_res (o : DecOutcome) (s : State) : (report o s).dec.res = resOf o := rfl
@[simp] theorem report_seen_reports (o : DecOutcome) (s : State) : (report o s).seen.reports = s.seen.reports ++ [o] := rfl
@[simp] theorem report_seen_dDone (o : DecOutcome) (s : State) : (report o s).seen.dDone = true := rfl

/-! ### raise -/

@[simp] theorem raise_cfg (k : ErrorKind) (st : Phase) (s : State) : (raise k st s).cfg = s.cfg := rfl
@[simp] theorem raise_enc (k : ErrorKind) (st : Phase) (s : State) : (raise k st s).enc = s.enc := rfl
@[simp] theorem raise_host (k : ErrorKind) (st : Phase) (s : State) : (raise k st s).host = s.host := rfl
@[simp] theorem raise_free (k : ErrorKind) (st : Phase) (s : State) : (raise k st s).free = s.free := rfl
@[simp] theorem raise_seen_sink (k : ErrorKind) (st : Phase) (s : State) : (raise k st s).seen.sink = s.seen.sink := rfl
@[simp] theorem raise_seen_eOut (k : ErrorKind) (st : Phase) (s : State) : (raise k st s).seen.eOut = s.seen.eOut := rfl
@[simp] theorem raise_seen_callSink (k : ErrorKind) (st : Phase) (s : State) : (raise k st s).seen.callSink = s.seen.callSink := rfl
@[simp] theorem raise_seen_call (k : ErrorKind) (st : Phase) (s : State) : (raise k st s).seen.call = s.seen.call := rfl
@[simp] theorem raise_dec (k : ErrorKind) (st : Phase) (s : State) : (raise k st s).dec = { acc := 0, st := st, res := { status := errorStatus k, value := 0 } } := rfl
@[simp] theorem raise_seen_reports (k : ErrorKind) (st : Phase) (s : State) : (raise k st s).seen.reports = s.seen.reports ++ [.err k] := rfl
@[simp] theorem raise_seen_dDone (k : ErrorKind) (st : Phase) (s : State) : (raise k st s).seen.dDone = true := rfl

/-! ### endDrain -/

@[simp] theorem endDrain_cfg (s : State) : (endDrain s).cfg = s.cfg := rfl
@[simp] theorem endDrain_enc (s : State) : (endDrain s).enc = s.enc := rfl
@[simp] theorem endDrain_host (s : State) : (endDrain s).host = s.host := rfl
@[simp] theorem endDrain_free (s : State) : (endDrain s).free = s.free := rfl
@[simp] theorem endDrain_seen (s : State) : (endDrain s).seen = s.seen := rfl
@[simp] theorem endDrain_dec (s : State) : (endDrain s).dec = { s.dec with st := .idle } := rfl

/-! ### endGood -/

@[simp] theorem endGood_cfg (s : State) : (endGood s).cfg = s.cfg := rfl
@[simp] theorem endGood_enc (s : State) : (endGood s).enc = s.enc := rfl
@[simp] theorem endGood_host (s : State) : (endGood s).host = s.host := rfl
@[simp] theorem endGood_free (s : State) : (endGood s).free = s.free := rfl
@[simp] theorem endGood_seen_sink (s : State) : (endGood s).seen.sink = s.seen.sink := rfl
@[simp] theorem endGood_seen_eOut (s : State) : (endGood s).seen.eOut = s.seen.eOut := rfl
@[simp] theorem endGood_seen_callSink (s : State) : (endGood s).seen.callSink = s.seen.callSink := rfl
@[simp] theorem endGood_seen_call (s : State) : (endGood s).seen.call = s.seen.call := rfl
@[simp] theorem endGood_dec (s : State) : (endGood s).dec = { acc := 0, st := .idle, res := { status := .ok, value := s.dec.acc } } := rfl
@[simp] theorem endGood_seen_reports (s : State) : (endGood s).seen.reports = s.seen.reports ++ [.ok s.dec.acc] := rfl
@[simp] theorem endGood_seen_dDone (s : State) : (endGood s).seen.dDone = true := rfl

/-! ### returnCall -/

@[simp] theorem returnCall_cfg (r : CallResult) (s : State) : (returnCall r s).cfg = s.cfg := rfl
@[simp] theorem returnCall_enc (r : CallResult) (s : State) : (returnCall r s).enc = s.enc := rfl
@[simp] theorem returnCall_dec (r : CallResult) (s : State) : (returnCall r s).dec = s.dec := rfl
@[simp] theorem returnCall_host (r : CallResult) (s : State) : (returnCall r s).host = s.host := rfl
@[simp] theorem returnCall_free (r : CallResult) (s : State) : (returnCall r s).free = s.free := rfl
@[simp] theorem returnCall_seen_sink (r : CallResult) (s : State) : (returnCall r s).seen.sink = s.seen.sink := rfl
@[simp] theorem returnCall_seen_reports (r : CallResult) (s : State) : (returnCall r s).seen.reports = s.seen.reports := rfl
@[simp] theorem returnCall_seen_eOut (r : CallResult) (s : State) : (returnCall r s).seen.eOut = s.seen.eOut := rfl
@[simp] theorem returnCall_seen_dDone (r : CallResult) (s : State) : (returnCall r s).seen.dDone = s.seen.dDone := rfl
@[simp] theorem returnCall_seen_callSink (r : CallResult) (s : State) : (returnCall r s).seen.callSink = s.seen.callSink := rfl
@[simp] theorem returnCall_seen_call (r : CallResult) (s : State) : (returnCall r s).seen.call = some r := rfl

/-! ### appendCallSink -/

@[simp] theorem appendCallSink_cfg (bytes : List Byte) (s : State) : (appendCallSink bytes s).cfg = s.cfg := rfl
@[simp] theorem appendCallSink_enc (bytes : List Byte) (s : State) : (appendCallSink bytes s).enc = s.enc := rfl
@[simp] theorem appendCallSink_dec (bytes : List Byte) (s : State) : (appendCallSink bytes s).dec = s.dec := rfl
@[simp] theorem appendCallSink_host (bytes : List Byte) (s : State) : (appendCallSink bytes s).host = s.host := rfl
@[simp] theorem appendCallSink_free (bytes : List Byte) (s : State) : (appendCallSink bytes s).free = s.free := rfl
@[simp] theorem appendCallSink_seen_sink (bytes : List Byte) (s : State) : (appendCallSink bytes s).seen.sink = s.seen.sink := rfl
@[simp] theorem appendCallSink_seen_reports (bytes : List Byte) (s : State) : (appendCallSink bytes s).seen.reports = s.seen.reports := rfl
@[simp] theorem appendCallSink_seen_eOut (bytes : List Byte) (s : State) : (appendCallSink bytes s).seen.eOut = s.seen.eOut := rfl
@[simp] theorem appendCallSink_seen_dDone (bytes : List Byte) (s : State) : (appendCallSink bytes s).seen.dDone = s.seen.dDone := rfl
@[simp] theorem appendCallSink_seen_call (bytes : List Byte) (s : State) : (appendCallSink bytes s).seen.call = s.seen.call := rfl
@[simp] theorem appendCallSink_seen_callSink (bytes : List Byte) (s : State) : (appendCallSink bytes s).seen.callSink = s.seen.callSink ++ bytes := rfl

/-! ### unspecifyEnc -/

@[simp] theorem unspecifyEnc_cfg (s : State) : (unspecifyEnc s).cfg = s.cfg := rfl
@[simp] theorem unspecifyEnc_dec (s : State) : (unspecifyEnc s).dec = s.dec := rfl
@[simp] theorem unspecifyEnc_host (s : State) : (unspecifyEnc s).host = s.host := rfl
@[simp] theorem unspecifyEnc_seen (s : State) : (unspecifyEnc s).seen = s.seen := rfl
@[simp] theorem unspecifyEnc_enc_busy (s : State) : (unspecifyEnc s).enc.busy = s.enc.busy := rfl
@[simp] theorem unspecifyEnc_free (s : State) : (unspecifyEnc s).free = s.free + 1 := rfl
@[simp] theorem unspecifyEnc_enc_val (s : State) : (unspecifyEnc s).enc.val = toWidth s.cfg.W (Config.freeVal s.free) := rfl
@[simp] theorem unspecifyEnc_enc_idx (s : State) : (unspecifyEnc s).enc.idx = toWidth (idxBits s.cfg.W) (Config.freeIdx s.free) := rfl
@[simp] theorem unspecifyEnc_enc_started (s : State) : (unspecifyEnc s).enc.started = Config.freeStarted s.free := rfl

/-! ### takeTurn -/

@[simp] theorem takeTurn_cfg (s : State) : (takeTurn s).cfg = s.cfg := rfl
@[simp] theorem takeTurn_enc (s : State) : (takeTurn s).enc = s.enc := rfl
@[simp] theorem takeTurn_dec (s : State) : (takeTurn s).dec = s.dec := rfl
@[simp] theorem takeTurn_seen (s : State) : (takeTurn s).seen = s.seen := rfl
@[simp] theorem takeTurn_free (s : State) : (takeTurn s).free = s.free := rfl
@[simp] theorem takeTurn_host_sched (s : State) : (takeTurn s).host.sched = s.host.sched.tail := rfl
@[simp] theorem takeTurn_host_cmds (s : State) : (takeTurn s).host.cmds = afterCommand (offered s) s := rfl

/-! ### withTurn -/

@[simp] theorem withTurn_cfg (t : Turn) (s : State) : (withTurn t s).cfg = s.cfg := rfl
@[simp] theorem withTurn_enc (t : Turn) (s : State) : (withTurn t s).enc = s.enc := rfl
@[simp] theorem withTurn_dec (t : Turn) (s : State) : (withTurn t s).dec = s.dec := rfl
@[simp] theorem withTurn_seen (t : Turn) (s : State) : (withTurn t s).seen = s.seen := rfl
@[simp] theorem withTurn_free (t : Turn) (s : State) : (withTurn t s).free = s.free := rfl
@[simp] theorem withTurn_host_cmds (t : Turn) (s : State) : (withTurn t s).host.cmds = s.host.cmds := rfl
@[simp] theorem withTurn_host_sched (t : Turn) (s : State) : (withTurn t s).host.sched = t :: s.host.sched := rfl

/-! ### schedule -/

@[simp] theorem schedule_cfg (ts : List Turn) (s : State) : (schedule ts s).cfg = s.cfg := rfl
@[simp] theorem schedule_enc (ts : List Turn) (s : State) : (schedule ts s).enc = s.enc := rfl
@[simp] theorem schedule_dec (ts : List Turn) (s : State) : (schedule ts s).dec = s.dec := rfl
@[simp] theorem schedule_seen (ts : List Turn) (s : State) : (schedule ts s).seen = s.seen := rfl
@[simp] theorem schedule_free (ts : List Turn) (s : State) : (schedule ts s).free = s.free := rfl
@[simp] theorem schedule_host_cmds (ts : List Turn) (s : State) : (schedule ts s).host.cmds = s.host.cmds := rfl
@[simp] theorem schedule_host_sched (ts : List Turn) (s : State) : (schedule ts s).host.sched = ts ++ s.host.sched := rfl

/-! ### present -/

@[simp] theorem present_cfg (vs : List Nat) (s : State) : (present vs s).cfg = s.cfg := rfl
@[simp] theorem present_enc (vs : List Nat) (s : State) : (present vs s).enc = s.enc := rfl
@[simp] theorem present_dec (vs : List Nat) (s : State) : (present vs s).dec = s.dec := rfl
@[simp] theorem present_seen (vs : List Nat) (s : State) : (present vs s).seen = s.seen := rfl
@[simp] theorem present_free (vs : List Nat) (s : State) : (present vs s).free = s.free := rfl
@[simp] theorem present_host_sched (vs : List Nat) (s : State) : (present vs s).host.sched = s.host.sched := rfl
@[simp] theorem present_host_cmds (vs : List Nat) (s : State) : (present vs s).host.cmds = vs ++ s.host.cmds := rfl

end Sys2Proof.Machine
end

