-- ==== Sys2Proof/Laws/Ops.lean ====
section
/-! SUPPORT. Everything each shared operation of Machine/Ops.lean can do, once; and what the meanings of the two units
leave alone. -/

namespace Sys2Proof.Machine

open Sys2Proof

/-- A continuation byte: good, overflow, extra data, or drained (R112). -/
theorem consumeCont_cases (p : Digit) (s : State) :
    ((s.dec.st = .idle ∨ s.dec.st = .cont) ∧ s.dec.acc + p.toNat ≤ lim s.cfg.W ∧
      consumeCont p s = setDec { s.dec with acc := (s.dec.acc + p.toNat) * 128, st := .cont } s) ∨
    ((s.dec.st = .idle ∨ s.dec.st = .cont) ∧ lim s.cfg.W < s.dec.acc + p.toNat ∧
      consumeCont p s = raise .overflow .drain s) ∨
    (s.dec.st = .term ∧ consumeCont p s = raise .extraData .drain s) ∨
    (s.dec.st = .drain ∧ consumeCont p s = s) := by
  unfold consumeCont
  cases h : s.dec.st with
  | term => simp
  | drain => simp
  | idle | cont =>
    by_cases ho : lim s.cfg.W < s.dec.acc + p.toNat
    · simp [overflows_iff, addPayload, ho]
    · simp [overflows_iff, addPayload, ho, shiftDigit_eq, Nat.le_of_not_lt ho]

/-- A terminal byte: good, extra data, or drained (R113). -/
theorem consumeTerm_cases (p : Digit) (s : State) :
    ((s.dec.st = .idle ∨ s.dec.st = .cont) ∧
      consumeTerm p s = setDec { s.dec with acc := (s.dec.acc + p.toNat) % 2 ^ s.cfg.W, st := .term } s) ∨
    (s.dec.st = .term ∧ consumeTerm p s = raise .extraData .drain s) ∨
    (s.dec.st = .drain ∧ consumeTerm p s = s) := by
  unfold consumeTerm
  cases h : s.dec.st <;> simp [toWidth, addPayload]

/-- `END`: one case per phase (R114). -/
theorem consumeEnd_cases (s : State) :
    (s.dec.st = .idle ∧ consumeEnd s = raise .emptyInput .idle s) ∨
    (s.dec.st = .cont ∧ consumeEnd s = raise .unfinishedSequence .idle s) ∨
    (s.dec.st = .term ∧ consumeEnd s = endGood s) ∨
    (s.dec.st = .drain ∧ consumeEnd s = endDrain s) := by
  unfold consumeEnd
  cases h : s.dec.st <;> simp

/-- What any of the Decoder's operations leaves alone, and the two things it can record. -/
structure DecFrame (s t : State) : Prop where
  cfg : t.cfg = s.cfg
  enc : t.enc = s.enc
  host : t.host = s.host
  free : t.free = s.free
  sink : t.seen.sink = s.seen.sink
  eOut : t.seen.eOut = s.seen.eOut
  callSink : t.seen.callSink = s.seen.callSink
  call : t.seen.call = s.seen.call
  record : (t.seen.reports = s.seen.reports ∧ t.seen.dDone = s.seen.dDone ∧ t.dec.res = s.dec.res) ∨
    ∃ o, t.seen.reports = s.seen.reports ++ [o] ∧ t.seen.dDone = true ∧ t.dec.res = resOf o

theorem DecFrame.same (s : State) : DecFrame s s :=
  ⟨rfl, rfl, rfl, rfl, rfl, rfl, rfl, rfl, .inl ⟨rfl, rfl, rfl⟩⟩

theorem DecFrame.setDec {d : Dec} {s : State} (h : d.res = s.dec.res) : DecFrame s (setDec d s) :=
  ⟨rfl, rfl, rfl, rfl, rfl, rfl, rfl, rfl, .inl ⟨rfl, rfl, h⟩⟩

theorem DecFrame.raise (k : ErrorKind) (st : Phase) (s : State) : DecFrame s (raise k st s) :=
  ⟨rfl, rfl, rfl, rfl, rfl, rfl, rfl, rfl, .inr ⟨.err k, rfl, rfl, rfl⟩⟩

theorem DecFrame.endGood (s : State) : DecFrame s (endGood s) :=
  ⟨rfl, rfl, rfl, rfl, rfl, rfl, rfl, rfl, .inr ⟨.ok s.dec.acc, rfl, rfl, rfl⟩⟩

theorem consumeCont_frame (p : Digit) (s : State) : DecFrame s (consumeCont p s) := by
  rcases consumeCont_cases p s with ⟨_, _, h⟩ | ⟨_, _, h⟩ | ⟨_, h⟩ | ⟨_, h⟩ <;> rw [h]
  exacts [.setDec rfl, .raise _ _ _, .raise _ _ _, .same s]

theorem consumeTerm_frame (p : Digit) (s : State) : DecFrame s (consumeTerm p s) := by
  rcases consumeTerm_cases p s with ⟨_, h⟩ | ⟨_, h⟩ | ⟨_, h⟩ <;> rw [h]
  exacts [.setDec rfl, .raise _ _ _, .same s]

theorem consumeEnd_frame (s : State) : DecFrame s (consumeEnd s) := by
  rcases consumeEnd_cases s with ⟨_, h⟩ | ⟨_, h⟩ | ⟨_, h⟩ | ⟨_, h⟩ <;> rw [h]
  exacts [.raise _ _ _, .raise _ _ _, .endGood s, .setDec rfl]

/-- What DEC's next fields and report depend on: its own fields and `W` (R49 (c)). -/
theorem consumeCont_congr (p : Digit) {s s' : State} (hc : s'.cfg = s.cfg) (hd : s'.dec = s.dec)
    (hr : s'.seen.reports = s.seen.reports) :
    (consumeCont p s').dec = (consumeCont p s).dec ∧
      (consumeCont p s').seen.reports = (consumeCont p s).seen.reports := by
  unfold consumeCont
  rw [hc, hd]
  cases h : s.dec.st with
  | term => simp [hr]
  | drain => simp [hd, hr]
  | idle | cont =>
    by_cases ho : overflows s.cfg.W (addPayload s.dec.acc p) = true <;> simp [ho, hr]

theorem consumeTerm_congr (p : Digit) {s s' : State} (hc : s'.cfg = s.cfg) (hd : s'.dec = s.dec)
    (hr : s'.seen.reports = s.seen.reports) :
    (consumeTerm p s').dec = (consumeTerm p s).dec ∧
      (consumeTerm p s').seen.reports = (consumeTerm p s).seen.reports := by
  unfold consumeTerm
  rw [hc, hd]
  cases h : s.dec.st <;> simp [hd, hr]

theorem consumeEnd_congr {s s' : State} (hd : s'.dec = s.dec) (hr : s'.seen.reports = s.seen.reports) :
    (consumeEnd s').dec = (consumeEnd s).dec ∧ (consumeEnd s').seen.reports = (consumeEnd s).seen.reports := by
  unfold consumeEnd
  rw [hd]
  cases h : s.dec.st <;> simp [hd, hr]

/-- ENC's digit step: emits, skips, or is not enabled (R93, R95). -/
theorem execEncDigit_cases (s : State) :
    (s.enc.busy = true ∧ s.enc.idx ≠ 0 ∧ (topDigit s.enc.val s.enc.idx ≠ 0 ∨ s.enc.started = true) ∧
      execEncDigit s = .next (emit (contByte (topDigit s.enc.val s.enc.idx))
        (setEnc { val := s.enc.val % weight s.enc.idx, idx := s.enc.idx - 1, started := true, busy := true }
          (quiet s)))) ∨
    (s.enc.busy = true ∧ s.enc.idx ≠ 0 ∧ topDigit s.enc.val s.enc.idx = 0 ∧ s.enc.started = false ∧
      execEncDigit s = .next (setEnc { s.enc with idx := s.enc.idx - 1 } (quiet s))) ∨
    ((s.enc.busy = false ∨ s.enc.idx = 0) ∧ execEncDigit s = .next (quiet s)) := by
  unfold execEncDigit
  by_cases hb : s.enc.busy = true
  · by_cases hi : s.enc.idx = 0
    · simp [hi]
    · by_cases hd : topDigit s.enc.val s.enc.idx = 0
      · cases hs : s.enc.started <;> simp [hb, hi, hd, hs, digitEmits, afterDigit_eq_mod]
      · simp [hb, hi, hd, digitEmits, afterDigit_eq_mod]
  · simp [Bool.not_eq_true _ ▸ hb]

/-- ENC's terminal step: emits, or is not enabled (R94, R95). -/
theorem execEncTerm_cases (s : State) :
    (s.enc.busy = true ∧ s.enc.idx = 0 ∧
      execEncTerm s = .next (emit (termByte s.enc.val) (setEnc { s.enc with busy := false } (quiet s)))) ∨
    ((s.enc.busy = false ∨ s.enc.idx ≠ 0) ∧ execEncTerm s = .next (quiet s)) := by
  unfold execEncTerm
  cases hb : s.enc.busy <;> by_cases hi : s.enc.idx = 0 <;> simp [hi]

/-- ENC's command: refused, held, or accepted (R92, R164, U1). -/
theorem execEncStart_cases (v : Nat) (s : State) :
    (2 ^ s.cfg.W ≤ v ∧ execEncStart v s = .refused .valueTooWide) ∨
    (v < 2 ^ s.cfg.W ∧ s.enc.busy = true ∧ execEncStart v s = .next (quiet s)) ∨
    (v < 2 ^ s.cfg.W ∧ s.enc.busy = false ∧
      execEncStart v s =
        .next (setEnc { val := v, idx := maxBytes s.cfg.W - 1, started := false, busy := true } (quiet s))) := by
  unfold execEncStart
  by_cases hv : maxValue s.cfg.W < v
  · exact .inl ⟨(maxValue_lt_iff _ _).mp hv, by rw [if_pos hv]⟩
  · have hv' : v < 2 ^ s.cfg.W := Nat.lt_of_not_le fun h => hv ((maxValue_lt_iff _ _).mpr h)
    cases hb : s.enc.busy <;> simp [hv, hv']

end Sys2Proof.Machine
end

