-- ==== Sys2Proof/Laws/PerInstr.lean ====
section
/-! SUPPORT. One law for every instruction: the word the encoder writes stands in the instruction's row of
spec/opcode_table.json (its width, its match under its mask). -/

namespace Sys2Proof.Laws

open Sys2Proof

/-- Whatever word the encoder writes for `i` has the width of the row of `i`, fits it, and matches it under its mask. -/
def Patterned.Statement (i : Instr) : Prop :=
  ∀ p, encodeWord i = some p → p.width = i.row.width ∧ p.bits < 2 ^ i.row.width ∧ p.bits &&& i.row.mask = i.row.pattern

theorem Patterned.maxBytes (w : Nat) : Patterned.Statement (.maxBytes w) := fun _ h => nomatch h

theorem Patterned.encode (v w : Nat) : Patterned.Statement (.encode v w) := fun _ h => nomatch h

theorem Patterned.decode (bytes : List Byte) (w : Nat) : Patterned.Statement (.decode bytes w) := fun _ h => nomatch h

theorem Patterned.encStart (v : Nat) : Patterned.Statement (.encStart v) := by
  intro p h
  cases h
  exact ⟨rfl, show 1 < 2 ^ 1 by decide, show (1#1).toNat &&& 1 = 1 by decide⟩

theorem Patterned.encDigit : Patterned.Statement .encDigit := fun _ h => nomatch h

theorem Patterned.encTerm : Patterned.Statement .encTerm := fun _ h => nomatch h

theorem Patterned.decCont (p : Digit) : Patterned.Statement (.decCont p) := by
  intro w h
  cases h
  revert p
  decide

theorem Patterned.decTerm (p : Digit) : Patterned.Statement (.decTerm p) := by
  intro w h
  cases h
  revert p
  decide

theorem Patterned.decEnd : Patterned.Statement .decEnd := by
  intro p h
  cases h
  decide

theorem Patterned.reset : Patterned.Statement .reset := by
  intro p h
  cases h
  decide

theorem Patterned.cont (p : Digit) : Patterned.Statement (.cont p) := by
  intro w h
  cases h
  revert p
  decide

theorem Patterned.term (p : Digit) : Patterned.Statement (.term p) := by
  intro w h
  cases h
  revert p
  decide

end Sys2Proof.Laws
end

