-- ==== Sys2Proof/Laws/Step.lean ====
section
/-! SUPPORT. What a step can do, said once: which operation a turn offers, what the step adds around it, what every
operation leaves alone, and how runs compose. -/

namespace Sys2Proof.Machine

open Sys2Proof

/-! ### Runs -/

theorem StepsTo_zero (s t : State) : StepsTo 0 s t ↔ s = t :=
  ⟨fun h => Host.Outcome.next.inj h, fun h => congrArg Host.Outcome.next h⟩

theorem StepsTo_succ (n : Nat) (s t : State) : StepsTo (n + 1) s t ↔ ∃ u, step s = .next u ∧ StepsTo n u t := by
  unfold StepsTo
  have hs : core.step s = step s := rfl
  generalize step s = o at hs ⊢
  rw [Host.Core.run.eq_2 core s n, hs]
  cases o with
  | next u => exact ⟨fun h => ⟨u, rfl, h⟩, fun ⟨u', hu, h⟩ => by cases hu; exact h⟩
  | fault r => exact ⟨fun h => (nomatch h), fun ⟨_, hu, _⟩ => (nomatch hu)⟩
  | refused r => exact ⟨fun h => (nomatch h), fun ⟨_, hu, _⟩ => (nomatch hu)⟩

/-- Runs compose. -/
theorem StepsTo_trans {m n : Nat} {s t u : State} (h1 : StepsTo m s t) (h2 : StepsTo n t u) : StepsTo (m + n) s u := by
  induction m generalizing s with
  | zero => rw [(StepsTo_zero _ _).mp h1, Nat.zero_add]; exact h2
  | succ m ih =>
    obtain ⟨v, hv, hr⟩ := (StepsTo_succ _ _ _).mp h1
    rw [Nat.succ_add]
    exact (StepsTo_succ _ _ _).mpr ⟨v, hv, ih hr⟩

theorem StepsTo_cons {n : Nat} {s t u : State} (h : step s = .next u) (hr : StepsTo n u t) : StepsTo (n + 1) s t :=
  (StepsTo_succ _ _ _).mpr ⟨u, h, hr⟩

/-! ### Which operation a turn offers -/

theorem schedule_cons (t : Turn) (ts : List Turn) (s : State) :
    schedule (t :: ts) s = withTurn t (schedule ts s) := rfl

theorem schedule_append (ts us : List Turn) (s : State) : schedule (ts ++ us) s = schedule ts (schedule us s) := by
  simp [schedule, List.append_assoc]

theorem schedule_nil (s : State) : schedule [] s = s := rfl

@[simp] theorem currentTurn_withTurn (t : Turn) (s : State) : currentTurn (withTurn t s) = t := rfl

theorem offered_reset (o : Offer) (s : State) : offered (withTurn ⟨1#1, o⟩ s) = some .reset := rfl

theorem offered_enc (s : State) : offered (withTurn turnEnc s) = internalStep s.enc := rfl

theorem offered_idle (s : State) : offered (withTurn (turnOf .idle) s) = none := rfl

theorem offered_token (t : Token) (s : State) : offered (withTurn (turnOf (.token t)) s) = some (decodeToken t) := rfl

theorem offered_wire (b : Byte) (s : State) : offered (withTurn (turnOf (.wire b)) s) = some (decodeByte b) := rfl

theorem offered_call (c : Call) (s : State) : offered (withTurn (turnOf (.call c)) s) = some (callInstr c) := rfl

theorem offered_start_cons {s : State} {v : Nat} {cs : List Nat} (h : s.host.cmds = v :: cs) :
    offered (withTurn turnStart s) = some (.encStart v) := by
  show readPort (commandPort s.host.cmds) = _
  rw [h]; rfl

theorem offered_start_nil {s : State} (h : s.host.cmds = []) : offered (withTurn turnStart s) = none := by
  show readPort (commandPort s.host.cmds) = none
  rw [h]; rfl

/-- `DEC.BYTE b` is `DEC.CONT` or `DEC.TERM` by the flag of `b` (R73). -/
theorem decodeToken_byteToken (b : Byte) :
    decodeToken (byteToken b) = if byteContinues b then .decCont (bytePayload b) else .decTerm (bytePayload b) := by
  revert b; decide

theorem decodeToken_endToken : decodeToken endToken = .decEnd := by decide

/-! ### What the step adds around the operation -/

theorem step_some {s : State} {i : Instr} (h : offered s = some i) : step s = exec i (takeTurn s) := by
  simp [step, h]

theorem step_none {s : State} (h : offered s = none) : step s = .next (quiet (takeTurn s)) := by
  simp [step, h]

/-- Unless an `ENC.START` is accepted, taking the turn only drops it. -/
theorem takeTurn_withTurn {t : Turn} {s : State} (h : ∀ v, offered (withTurn t s) ≠ some (.encStart v)) :
    takeTurn (withTurn t s) = s := by
  have : afterCommand (offered (withTurn t s)) (withTurn t s) = s.host.cmds := by
    unfold afterCommand
    split
    · next v hv => exact absurd hv (h v)
    · rfl
  simp [takeTurn, this]

theorem internalStep_ne_start (e : Enc) (v : Nat) : internalStep e ≠ some (.encStart v) := by
  unfold internalStep; split
  · split <;> simp
  · simp

theorem decodeToken_ne_start (t : Token) (v : Nat) : decodeToken t ≠ .encStart v := by
  unfold decodeToken; split
  · simp
  · split <;> simp

theorem decodeByte_ne_start (b : Byte) (v : Nat) : decodeByte b ≠ .encStart v := by
  unfold decodeByte; split <;> simp

theorem step_reset (o : Offer) (s : State) : step (withTurn ⟨1#1, o⟩ s) = execReset s := by
  rw [step_some (offered_reset o s), takeTurn_withTurn (by simp [offered_reset])]; rfl

theorem step_token (t : Token) (s : State) : step (withTurn (turnOf (.token t)) s) = exec (decodeToken t) s := by
  rw [step_some (offered_token t s),
    takeTurn_withTurn (by simp [offered_token, decodeToken_ne_start])]

theorem step_wire (b : Byte) (s : State) : step (withTurn (turnOf (.wire b)) s) = exec (decodeByte b) s := by
  rw [step_some (offered_wire b s), takeTurn_withTurn (by simp [offered_wire, decodeByte_ne_start])]

theorem step_byte (b : Byte) (s : State) :
    step (withTurn (turnByte b) s) =
      .next (if byteContinues b then consumeCont (bytePayload b) (quiet s)
        else consumeTerm (bytePayload b) (quiet s)) := by
  rw [turnByte, step_token, decodeToken_byteToken]
  split <;> rfl

theorem step_end (s : State) : step (withTurn turnEnd s) = .next (consumeEnd (quiet s)) := by
  rw [turnEnd, step_token, decodeToken_endToken]; rfl

theorem step_enc_idle {s : State} (h : s.enc.busy = false) : step (withTurn turnEnc s) = .next (quiet s) := by
  have ho : offered (withTurn turnEnc s) = none := by rw [offered_enc, internalStep, h]; rfl
  rw [step_none ho, takeTurn_withTurn (by simp [ho])]

theorem step_enc_term {s : State} (hb : s.enc.busy = true) (hi : s.enc.idx = 0) :
    step (withTurn turnEnc s) = execEncTerm s := by
  have ho : offered (withTurn turnEnc s) = some .encTerm := by rw [offered_enc, internalStep, hb, hi]; rfl
  rw [step_some ho, takeTurn_withTurn (by simp [ho])]; rfl

theorem step_enc_digit {s : State} (hb : s.enc.busy = true) (hi : s.enc.idx ≠ 0) :
    step (withTurn turnEnc s) = execEncDigit s := by
  have ho : offered (withTurn turnEnc s) = some .encDigit := by
    rw [offered_enc, internalStep, if_pos hb, if_neg hi]
  rw [step_some ho, takeTurn_withTurn (by simp [ho])]; rfl

/-- An accepted `ENC.START` leaves the host's list (R92). -/
theorem step_start_accepted {s : State} {v : Nat} {cs : List Nat} (hc : s.host.cmds = v :: cs)
    (hb : s.enc.busy = false) :
    step (withTurn turnStart s) = execEncStart v { s with host := { s.host with cmds := cs } } := by
  rw [step_some (offered_start_cons hc)]
  have : takeTurn (withTurn turnStart s) = { s with host := { s.host with cmds := cs } } := by
    have hn : afterCommand (some (.encStart v)) (withTurn turnStart s) = cs := by simp [afterCommand, hb, hc]
    rw [takeTurn, offered_start_cons hc, hn]; rfl
  rw [this]; rfl

/-- A held `ENC.START` stays in it (R164). -/
theorem step_start_held {s : State} {v : Nat} {cs : List Nat} (hc : s.host.cmds = v :: cs) (hb : s.enc.busy = true) :
    step (withTurn turnStart s) = execEncStart v s := by
  rw [step_some (offered_start_cons hc)]
  have : takeTurn (withTurn turnStart s) = s := by
    have hn : afterCommand (some (.encStart v)) (withTurn turnStart s) = s.host.cmds := by simp [afterCommand, hb]
    rw [takeTurn, offered_start_cons hc, hn]; rfl
  rw [this]; rfl

/-! ### What every operation leaves alone -/

/-- No operation changes the configuration or the host's side (R5). -/
theorem exec_cfg_host {i : Instr} {s t : State} (h : exec i s = .next t) : t.cfg = s.cfg ∧ t.host = s.host := by
  cases i with
  | maxBytes w =>
    simp only [exec, execMaxBytes] at h; split at h
    · cases h
    · cases h; exact ⟨rfl, rfl⟩
  | encode v w =>
    simp only [exec, execEncode] at h; split at h
    · cases h
    · split at h
      · cases h
      · cases h; exact ⟨rfl, rfl⟩
  | decode bs w =>
    simp only [exec, execDecode] at h; split at h
    · cases h
    · cases h; exact ⟨rfl, rfl⟩
  | encStart v =>
    rcases execEncStart_cases v s with ⟨_, he⟩ | ⟨_, _, he⟩ | ⟨_, _, he⟩ <;> rw [exec, he] at h <;> cases h <;>
      exact ⟨rfl, rfl⟩
  | encDigit =>
    rcases execEncDigit_cases s with ⟨_, _, _, he⟩ | ⟨_, _, _, _, he⟩ | ⟨_, he⟩ <;> rw [exec, he] at h <;> cases h <;>
      exact ⟨rfl, rfl⟩
  | encTerm =>
    rcases execEncTerm_cases s with ⟨_, _, he⟩ | ⟨_, he⟩ <;> rw [exec, he] at h <;> cases h <;> exact ⟨rfl, rfl⟩
  | decCont p => cases h; exact ⟨(consumeCont_frame p _).cfg, (consumeCont_frame p _).host⟩
  | decTerm p => cases h; exact ⟨(consumeTerm_frame p _).cfg, (consumeTerm_frame p _).host⟩
  | decEnd => cases h; exact ⟨(consumeEnd_frame _).cfg, (consumeEnd_frame _).host⟩
  | reset => cases h; exact ⟨rfl, rfl⟩
  | cont p => cases h; exact ⟨(consumeCont_frame p _).cfg, (consumeCont_frame p _).host⟩
  | term p => cases h; exact ⟨(consumeTerm_frame p _).cfg, (consumeTerm_frame p _).host⟩

/-- What any operation can record (R52): at most one byte and at most one outcome, each with its strobe; `D.res` changes
only with a report or in RESET. -/
theorem exec_events {i : Instr} {s t : State} (h : exec i s = .next t) :
    ((t.seen.sink = s.seen.sink ∧ t.seen.eOut = none) ∨ ∃ b, t.seen.sink = s.seen.sink ++ [b] ∧ t.seen.eOut = some b) ∧
    ((t.seen.reports = s.seen.reports ∧ t.seen.dDone = false ∧ (i ≠ .reset → t.dec.res = s.dec.res)) ∨
      ∃ o, t.seen.reports = s.seen.reports ++ [o] ∧ t.seen.dDone = true ∧ t.dec.res = resOf o) := by
  have dec : ∀ {u : State}, DecFrame (quiet s) u →
    ((u.seen.sink = s.seen.sink ∧ u.seen.eOut = none) ∨ ∃ b, u.seen.sink = s.seen.sink ++ [b] ∧ u.seen.eOut = some b) ∧
    ((u.seen.reports = s.seen.reports ∧ u.seen.dDone = false ∧ (i ≠ .reset → u.dec.res = s.dec.res)) ∨
      ∃ o, u.seen.reports = s.seen.reports ++ [o] ∧ u.seen.dDone = true ∧ u.dec.res = resOf o) := by
    intro u hf
    refine ⟨.inl ⟨hf.sink, hf.eOut⟩, ?_⟩
    rcases hf.record with ⟨a, b, c⟩ | ⟨o, a, b, c⟩
    · exact .inl ⟨a, b, fun _ => c⟩
    · exact .inr ⟨o, a, b, c⟩
  cases i with
  | maxBytes w =>
    simp only [exec, execMaxBytes] at h; split at h
    · cases h
    · cases h; simp
  | encode v w =>
    simp only [exec, execEncode] at h; split at h
    · cases h
    · split at h
      · cases h
      · cases h; simp
  | decode bs w =>
    simp only [exec, execDecode] at h; split at h
    · cases h
    · cases h; simp
  | encStart v =>
    rcases execEncStart_cases v s with ⟨_, he⟩ | ⟨_, _, he⟩ | ⟨_, _, he⟩ <;> rw [exec, he] at h <;> cases h <;> simp
  | encDigit =>
    rcases execEncDigit_cases s with ⟨_, _, _, he⟩ | ⟨_, _, _, _, he⟩ | ⟨_, he⟩ <;> rw [exec, he] at h <;> cases h <;> simp
  | encTerm =>
    rcases execEncTerm_cases s with ⟨_, _, he⟩ | ⟨_, he⟩ <;> rw [exec, he] at h <;> cases h <;> simp
  | decCont p => cases h; exact dec (consumeCont_frame p _)
  | decTerm p => cases h; exact dec (consumeTerm_frame p _)
  | decEnd => cases h; exact dec (consumeEnd_frame _)
  | reset => cases h; simp
  | cont p => cases h; exact dec (consumeCont_frame p _)
  | term p => cases h; exact dec (consumeTerm_frame p _)

/-- A step either runs the operation offered or only takes the turn. -/
theorem step_cases {s t : State} (h : step s = .next t) :
    (∃ i, offered s = some i ∧ exec i (takeTurn s) = .next t) ∨ (offered s = none ∧ t = quiet (takeTurn s)) := by
  cases ho : offered s with
  | some i => rw [step_some ho] at h; exact .inl ⟨i, rfl, h⟩
  | none => rw [step_none ho] at h; cases h; exact .inr ⟨rfl, rfl⟩

/-- The state after a DEC operation that leaves the fields `d`, reports `reps` and drives `d_done = done`. -/
def decRecorded (d : Dec) (reps : List DecOutcome) (done : Bool) (s : State) : State :=
  { s with dec := d, seen := { silent s.seen with reports := s.seen.reports ++ reps, dDone := done } }

theorem raise_quiet (k : ErrorKind) (st : Phase) (s : State) :
    raise k st (quiet s) = decRecorded ⟨0, st, ⟨errorStatus k, 0⟩⟩ [.err k] true s := rfl

theorem endGood_quiet (s : State) :
    endGood (quiet s) = decRecorded ⟨0, .idle, ⟨.ok, s.dec.acc⟩⟩ [.ok s.dec.acc] true s := rfl

theorem setDec_quiet (d : Dec) (s : State) : setDec d (quiet s) = decRecorded d [] false s := by
  simp [setDec, quiet, decRecorded, silent]

theorem quiet_eq (s : State) : quiet s = decRecorded s.dec [] false s := by simp [quiet, decRecorded, silent]

theorem consumeCont_local (p : Digit) (s : State) : ∃ d reps done, ∀ s' : State, s'.cfg = s.cfg → s'.dec = s.dec →
    consumeCont p (quiet s') = decRecorded d reps done s' := by
  cases hst : s.dec.st with
  | term => exact ⟨_, _, _, fun s' _ hd => by simp [consumeCont, hd, hst]; exact raise_quiet _ _ _⟩
  | drain => exact ⟨s.dec, [], false, fun s' _ hd => by simp [consumeCont, hd, hst]; rw [quiet_eq, hd]⟩
  | idle | cont =>
    by_cases ho : overflows s.cfg.W (addPayload s.dec.acc p) = true
    · exact ⟨_, _, _, fun s' hc hd => by simp [consumeCont, hc, hd, hst, ho]; exact raise_quiet _ _ _⟩
    · exact ⟨_, _, _, fun s' hc hd => by simp [consumeCont, hc, hd, hst, ho]; exact setDec_quiet _ _⟩

theorem consumeTerm_local (p : Digit) (s : State) : ∃ d reps done, ∀ s' : State, s'.cfg = s.cfg → s'.dec = s.dec →
    consumeTerm p (quiet s') = decRecorded d reps done s' := by
  cases hst : s.dec.st with
  | term => exact ⟨_, _, _, fun s' _ hd => by simp [consumeTerm, hd, hst]; exact raise_quiet _ _ _⟩
  | drain => exact ⟨s.dec, [], false, fun s' _ hd => by simp [consumeTerm, hd, hst]; rw [quiet_eq, hd]⟩
  | idle | cont => exact ⟨_, _, _, fun s' hc hd => by simp [consumeTerm, hc, hd, hst]; exact setDec_quiet _ _⟩

theorem consumeEnd_local (s : State) : ∃ d reps done, ∀ s' : State, s'.dec = s.dec →
    consumeEnd (quiet s') = decRecorded d reps done s' := by
  cases hst : s.dec.st with
  | idle | cont => exact ⟨_, _, _, fun s' hd => by simp [consumeEnd, hd, hst]; exact raise_quiet _ _ _⟩
  | term => exact ⟨_, _, _, fun s' hd => by simp [consumeEnd, hd, hst]; rw [endGood_quiet, hd]⟩
  | drain => exact ⟨_, _, _, fun s' hd => by simp [consumeEnd, hd, hst, endDrain]; exact setDec_quiet _ _⟩

/-- What a DEC operation does is fixed by `W` and DEC's own fields: its next fields, its report and its strobe; it
touches nothing else (R42, R49 (c)). -/
theorem exec_dec_local {i : Instr} (s : State) (hi : isDecInstr i = true) :
    ∃ d reps done, ∀ s' : State, s'.cfg = s.cfg → s'.dec = s.dec →
      exec i s' = .next (decRecorded d reps done s') := by
  cases i with
  | decCont p | cont p =>
    obtain ⟨d, r, o, h⟩ := consumeCont_local p s
    exact ⟨d, r, o, fun s' a b => congrArg _ (h s' a b)⟩
  | decTerm p | term p =>
    obtain ⟨d, r, o, h⟩ := consumeTerm_local p s
    exact ⟨d, r, o, fun s' a b => congrArg _ (h s' a b)⟩
  | decEnd =>
    obtain ⟨d, r, o, h⟩ := consumeEnd_local s
    exact ⟨d, r, o, fun s' _ b => congrArg _ (h s' b)⟩
  | _ => cases hi

end Sys2Proof.Machine
end

