-- ==== Sys2Proof/Tests/Slice0.lean ====
section
/-! SUPPORT. The model's own tests. Every expected result is taken from the spec: the vectors and programs of
95_test_vectors.md (named V-..., P...), the examples of the rules, or the bit patterns of 30_encoding.md. -/

namespace Sys2Proof.Tests

open Sys2Proof Sys2Proof.Machine

/-! ### Helpers -/

/-- The instance `c` after reset with a fresh ENC and DEC. -/
def at0 (c : Config) : State := State.resetAt c

/-- A state with given ENC fields. -/
def encAt (c : Config) (e : Enc) : State := setEnc e (at0 c)

/-- A state with given accumulator and phase. -/
def decAt (c : Config) (acc : Nat) (st : Phase) : State := setDec { acc := acc, st := st, res := ⟨.none, 0⟩ } (at0 c)

/-- A view of the next state, `none` where there is none. -/
def after {α : Type} (f : State → α) : Host.Outcome State Fault Refusal → Option α
  | .next s => some (f s)
  | .fault _ => none
  | .refused _ => none

/-- The refusal of an outcome. -/
def refusal : Host.Outcome State Fault Refusal → Option Refusal
  | .next _ => none
  | .fault _ => none
  | .refused r => some r

/-- `D.acc`, `D.st` and `(status, value)` as the vectors list them. -/
def decView (s : State) : Nat × Nat × Nat × Nat :=
  (s.dec.acc, (phaseCode s.dec.st).toNat, (statusCode s.dec.res.status).toNat, s.dec.res.value)

/-! ### Well-formedness: an ill-formed term for each check, refused (R5, U1, U2) -/

theorem test_wf_maxBytes_narrow : Instr.wf 8 (.maxBytes 6) = false := by decide
theorem test_wf_encode_narrow : Instr.wf 8 (.encode 0 6) = false := by decide
theorem test_wf_encode_wide_value : Instr.wf 64 (.encode 256 8) = false := by decide
theorem test_wf_decode_narrow : Instr.wf 8 (.decode [] 6) = false := by decide
theorem test_wf_encStart_wide_value : Instr.wf 8 (.encStart 256) = false := by decide
theorem test_wf_encStart_maxv : Instr.wf 8 (.encStart 255) = true := by decide

/-! ### Decoding: each pattern written out from 30_encoding.md R61, R67, R68 and R160 -/

/-- `01ppppppp`, p = 1 (V-T6 token 0x081). -/
theorem test_decode_decCont : decodeWord (.token 0b010000001#9) = .ok (.decCont 1#7) := by decide
/-- `00ppppppp`, p = 42 (V-T6 token 0x02A). -/
theorem test_decode_decTerm : decodeWord (.token 0b000101010#9) = .ok (.decTerm 42#7) := by decide
/-- `1xxxxxxxx`, low bits ignored (V-T8 token 0x17E). -/
theorem test_decode_decEnd : decodeWord (.token 0b101111110#9) = .ok .decEnd := by decide
/-- `1ppppppp`, byte 0xAA of V-S5, payload 42. -/
theorem test_decode_cont : decodeWord (.wire 0b10101010#8) = .ok (.cont 42#7) := by decide
/-- `0ppppppp`, byte 0x7F, payload 127. -/
theorem test_decode_term : decodeWord (.wire 0b01111111#8) = .ok (.term 127#7) := by decide
/-- `e_start = 1`, `e_value = 300`. -/
theorem test_decode_encStart : decodeWord (.command 0b1#1 300) = .ok (.encStart 300) := by decide
/-- `rst = 1`. -/
theorem test_decode_reset : decodeWord (.rst 0b1#1) = .ok .reset := by decide
/-- Nothing on the pin, nothing on the command port: rejected by name. -/
theorem test_decode_low : decodeWord (.rst 0#1) = .error .resetPinLow ∧
    decodeWord (.command 0#1 5) = .error .startStrobeLow := by decide
/-- The ports with a pattern, written out by the encoder. -/
theorem test_encode_words :
    encodeWord (.decCont 127#7) = some (.token 0x0FF#9) ∧ encodeWord (.decTerm 127#7) = some (.token 0x07F#9) ∧
    encodeWord (.cont 3#7) = some (.wire 0x83#8) ∧ encodeWord (.term 3#7) = some (.wire 0x03#8) := by decide

/-- The table's match and mask against the decoder, on all 512 tokens. -/
theorem test_tokens_match_table :
    ∀ t : Fin 512, (decodeToken (BitVec.ofFin t)).row.pattern = t.val &&& (decodeToken (BitVec.ofFin t)).row.mask := by
  decide +kernel

/-- The table's words and the step that fetches them, on the state after reset. -/
theorem test_table_words :
    decodeTableWord 16 0x080 = some (.decCont 0#7) ∧ decodeTableWord 16 0x000 = some (.decTerm 0#7) ∧
    decodeTableWord 16 0x100 = some .decEnd ∧ decodeTableWord 8 0x80 = some (.cont 0#7) ∧
    decodeTableWord 8 0x00 = some (.term 0#7) ∧ decodeTableWord 8 0x1 = some .reset ∧
    decodeTableWord 16 0x200 = none ∧ decodeTableWord 0 0 = none := by decide

/-- `withFetchWord` puts the token where the next step takes it. -/
theorem test_fetch_word :
    offered (State.reset.withFetchWord 16 0x0FF) = some (.decCont 127#7) ∧
    after decView (step (State.reset.withFetchWord 16 0x0FF)) = some (127 * 128, 1, 0, 0) := by decide

/-! ### maxBytes (V-S1, V-M1 to V-M10) and the constants of R8, R22 and R83 -/

theorem test_maxBytes_values :
    maxBytes 8 = 2 ∧ maxBytes 16 = 3 ∧ maxBytes 32 = 5 ∧ maxBytes 64 = 10 ∧ maxBytes 7 = 2 ∧ maxBytes 13 = 2 ∧
    maxBytes 14 = 3 ∧ maxBytes 21 = 4 ∧ maxBytes 63 = 10 ∧ maxBytes 128 = 19 := by decide
theorem test_exec_maxBytes :
    after (·.seen.call) (exec (.maxBytes 32) (at0 .w8)) = some (some (.length 5)) ∧
    refusal (exec (.maxBytes 6) (at0 .w8)) = some .widthBelowSeven := by decide
theorem test_lim : lim 8 = 1 ∧ lim 16 = 511 ∧ lim 32 = 33554431 ∧ lim 64 = 144115188075855871 ∧ lim 7 = 0 ∧
    lim 14 = 127 := by decide
theorem test_register_widths : idxBits 8 = 1 ∧ idxBits 16 = 2 ∧ idxBits 32 = 3 ∧ idxBits 64 = 4 ∧
    mBytesBits 8 = 2 ∧ mBytesBits 16 = 2 ∧ mBytesBits 32 = 3 ∧ mBytesBits 64 = 4 := by decide

/-! ### encode (V-S2 to V-S9; V-E7, V-E9, V-E10, V-E12, V-E13, V-E15, V-E20, V-E24 to V-E26; 90_conflicts.md C2) -/

theorem test_encode_vectors :
    opEncode 42 32 = [0x2A#8] ∧ opEncode 128 8 = [0x81#8, 0x00#8] ∧ opEncode 170 32 = [0x81#8, 0x2A#8] ∧
    opEncode 693546 32 = [0xAA#8, 0xAA#8, 0x2A#8] ∧ opEncode 255 8 = [0x81#8, 0x7F#8] ∧
    opEncode 65535 16 = [0x83#8, 0xFF#8, 0x7F#8] ∧ opEncode 0 64 = [0x00#8] ∧
    opEncode (2 ^ 64 - 1) 64 =
      [0x81#8, 0xFF#8, 0xFF#8, 0xFF#8, 0xFF#8, 0xFF#8, 0xFF#8, 0xFF#8, 0xFF#8, 0x7F#8] ∧
    opEncode 16384 16 = [0x81#8, 0x80#8, 0x00#8] ∧ opEncode 2097152 32 = [0x81#8, 0x80#8, 0x80#8, 0x00#8] ∧
    opEncode 16383 16 = [0xFF#8, 0x7F#8] ∧ opEncode 66051 32 = [0x84#8, 0x84#8, 0x03#8] ∧
    opEncode 65280 16 = [0x83#8, 0xFE#8, 0x00#8] ∧ opEncode 4294967295 32 = [0x8F#8, 0xFF#8, 0xFF#8, 0xFF#8, 0x7F#8] ∧
    opEncode 127 7 = [0x7F#8] ∧ opEncode 16383 14 = [0xFF#8, 0x7F#8] ∧ opEncode 8192 14 = [0xC0#8, 0x00#8] := by decide
theorem test_exec_encode :
    after (fun s => (s.seen.callSink, s.seen.sink)) (exec (.encode 300 32) (at0 .w8)) = some ([0x82#8, 0x2C#8], []) ∧
    refusal (exec (.encode 256 8) (at0 .w8)) = some .valueTooWide := by decide

/-! ### decode (V-S10 to V-S16; V-D2 to V-D18, V-D21, V-D27, V-D29, V-D30) -/

theorem test_decode_vectors :
    opDecode [0x00#8] 32 = .ok 0 ∧ opDecode [0x2A#8] 32 = .ok 42 ∧ opDecode [0x81#8, 0x2A#8] 32 = .ok 170 ∧
    opDecode [] 32 = .err .emptyInput ∧ opDecode [0x80#8] 32 = .err .unfinishedSequence ∧
    opDecode [0x01#8, 0x01#8] 32 = .err .extraData ∧ opDecode [0x82#8, 0x01#8] 8 = .err .overflow ∧
    opDecode [0x81#8, 0x7F#8] 8 = .ok 255 ∧ opDecode [0x82#8] 8 = .err .overflow ∧
    opDecode [0x80#8, 0x81#8, 0x7F#8] 8 = .ok 255 ∧ opDecode [0x80#8, 0x80#8] 8 = .err .unfinishedSequence ∧
    opDecode [0x01#8, 0x82#8] 8 = .err .extraData ∧ opDecode [0x82#8, 0x01#8, 0x01#8] 8 = .err .overflow ∧
    opDecode [0x83#8, 0xFF#8, 0x7F#8] 16 = .ok 65535 ∧ opDecode [0x84#8, 0x80#8, 0x00#8] 16 = .err .overflow ∧
    opDecode [0x90#8, 0x80#8, 0x80#8, 0x80#8, 0x00#8] 32 = .err .overflow ∧
    opDecode [0x82#8, 0x80#8, 0x80#8, 0x80#8, 0x80#8, 0x80#8, 0x80#8, 0x80#8, 0x80#8, 0x00#8] 64 = .err .overflow ∧
    opDecode [0x81#8, 0x00#8] 7 = .err .overflow ∧ opDecode [0x80#8, 0x7F#8] 7 = .ok 127 := by decide
theorem test_exec_decode :
    after (fun s => (s.seen.call, decView s)) (exec (.decode [0x81#8, 0x2A#8] 32) (at0 .w8)) =
      some (some (.decoded (.ok 170)), (0, 0, 0, 0)) ∧
    refusal (exec (.decode [0x7F#8] 4) (at0 .w8)) = some .widthBelowSeven := by decide

/-! ### ENC steps (V-T1, V-T2, V-T4, V-T5, R164) -/

theorem test_encStart : after (·.enc) (exec (.encStart 65535) (at0 .w16)) = some ⟨65535, 2, false, true⟩ := by decide
theorem test_encStart_held :
    after (fun s => (s.enc, s.seen.sink)) (exec (.encStart 300) (encAt .w16 ⟨65535, 2, false, true⟩)) =
      some (⟨65535, 2, false, true⟩, []) := by decide
theorem test_encDigit :
    after (fun s => (s.enc, s.seen.sink)) (exec .encDigit (encAt .w16 ⟨65535, 2, false, true⟩)) =
      some (⟨16383, 1, true, true⟩, [0x83#8]) := by decide
/-- A leading zero group is silent (V-T2); an interior one is emitted (P3). -/
theorem test_encDigit_zero_groups :
    after (fun s => (s.enc, s.seen.eOut)) (exec .encDigit (encAt .w16 ⟨300, 2, false, true⟩)) =
      some (⟨300, 1, false, true⟩, none) ∧
    after (fun s => (s.enc, s.seen.eOut)) (exec .encDigit (encAt .w16 ⟨0, 1, true, true⟩)) =
      some (⟨0, 0, true, true⟩, some 0x80#8) := by decide
/-- V-T4: the terminal byte is emitted although nothing was started. -/
theorem test_encTerm :
    after (fun s => (s.enc, s.seen.eOut)) (exec .encTerm (encAt .w8 ⟨0, 0, false, true⟩)) =
      some (⟨0, 0, false, false⟩, some 0x00#8) := by decide
theorem test_encTerm_max :
    after (fun s => (s.enc, s.seen.sink)) (exec .encTerm (encAt .w16 ⟨127, 0, true, true⟩)) =
      some (⟨127, 0, true, false⟩, [0x7F#8]) := by decide

/-! ### DEC steps: the fourteen rows of R126 (V-T6 to V-T10) -/

theorem test_decCont_idle :
    after decView (exec (.decCont 1#7) (decAt .w32 0 .idle)) = some (128, 1, 0, 0) ∧
    after decView (exec (.decCont 2#7) (decAt .w8 0 .idle)) = some (0, 3, 5, 0) := by decide
theorem test_decCont_others :
    after decView (exec (.decCont 127#7) (decAt .w16 384 .cont)) = some (65408, 1, 0, 0) ∧
    after decView (exec (.decCont 127#7) (decAt .w16 65408 .cont)) = some (0, 3, 5, 0) ∧
    after decView (exec (.decCont 127#7) (decAt .w8 0 .term)) = some (0, 3, 4, 0) ∧
    after decView (exec (.decCont 127#7) (decAt .w8 0 .drain)) = some (0, 3, 0, 0) := by decide
theorem test_decTerm_good :
    after decView (exec (.decTerm 42#7) (decAt .w8 0 .idle)) = some (42, 2, 0, 0) ∧
    after decView (exec (.decTerm 127#7) (decAt .w8 128 .cont)) = some (255, 2, 0, 0) := by decide
theorem test_decTerm_others :
    after decView (exec (.decTerm 1#7) (decAt .w8 1 .term)) = some (0, 3, 4, 0) ∧
    after decView (exec (.decTerm 1#7) (decAt .w8 0 .drain)) = some (0, 3, 0, 0) := by decide
theorem test_decEnd_errors :
    after decView (exec .decEnd (decAt .w8 0 .idle)) = some (0, 0, 2, 0) ∧
    after decView (exec .decEnd (decAt .w8 0 .cont)) = some (0, 0, 3, 0) := by decide
theorem test_decEnd_good :
    after decView (exec .decEnd (decAt .w32 170 .term)) = some (0, 0, 1, 170) ∧
    after (fun s => (decView s, s.seen.dDone)) (exec .decEnd (decAt .w8 0 .drain)) = some ((0, 0, 0, 0), false) := by
  decide

/-! ### Wire bytes -/

theorem test_cont : after decView (exec (.cont 1#7) (decAt .w32 0 .idle)) = some (128, 1, 0, 0) := by decide
theorem test_term : after decView (exec (.term 42#7) (decAt .w32 128 .cont)) = some (170, 2, 0, 0) := by decide

/-! ### RESET (V-T9, P5, R160) -/

theorem test_reset_dec : after decView (exec .reset (decAt .w32 128 .cont)) = some (0, 0, 0, 0) := by decide
theorem test_reset_enc :
    after (fun s => (s.enc.busy, s.seen.eOut)) (exec .reset (encAt .w16 ⟨16383, 1, true, true⟩)) =
      some (false, none) := by decide

/-! ### Witnesses: for each obligation with hypotheses, concrete data that meets all of them, one case per clause -/

/-- A state with turns to come. -/
def withSched (ts : List Turn) (s : State) : State := schedule ts s

/-- Instances, just below and at the bound. -/
theorem witness_BuildsExactlyWidthsFromSeven :
    State.build 6 = .error .widthBelowSeven ∧ State.build 7 = .ok (State.resetAt .w7) ∧ Config.w7.W = 7 := by decide

theorem witness_MaxBytesCallReturnsFormula :
    7 ≤ 7 ∧ after (·.seen.call) (exec (.maxBytes 7) (at0 .w8)) = some (some (.length 2)) := by decide

/-- 7 divides the width, and does not. -/
theorem witness_PayloadBudgetExceedsWidth : 7 ≤ 7 ∧ 7 ∣ 7 ∧ 7 ≤ 8 ∧ ¬ 7 ∣ 8 := by decide

theorem witness_WellFormedOperationsComplete :
    Instr.wf (at0 .w8).cfg.W (.encStart 255) = true ∧ Instr.wf (at0 .w8).cfg.W (.encStart 256) = false ∧
    refusal (exec (.encStart 256) (at0 .w8)) = some .valueTooWide := by decide

theorem witness_WireByteClasses :
    0x80#8 &&& 0x80#8 ≠ 0#8 ∧ 0xFF#8 &&& 0x80#8 ≠ 0#8 ∧ 0x7F#8 &&& 0x80#8 = 0#8 ∧ 0x00#8 &&& 0x80#8 = 0#8 := by decide

/-- At width 7 (`LIM = 0`): a well-formed sequence; continuation bytes only, without and with overflow; a byte after the
first terminal byte, without and with overflow before it. -/
theorem witness_IllFormedShapesAndTheirErrors :
    7 ≤ 7 ∧ WellFormedSeq [0x80#8, 0x00#8] ∧
    opDecode [0x80#8] 7 = .err .unfinishedSequence ∧ opDecode [0x81#8] 7 = .err .overflow ∧
    opDecode [0x00#8, 0x01#8] 7 = .err .extraData ∧ opDecode [0x81#8, 0x00#8, 0x01#8] 7 = .err .overflow ∧
    byteContinues 0x81#8 = true ∧ byteContinues 0x00#8 = false :=
  ⟨by decide, ⟨[0x80#8], 0x00#8, rfl, by decide, by decide⟩, by decide⟩

/-- One token of each kind, and a token offered in phase DRAIN. -/
theorem witness_TokenFormatAlwaysReady :
    (0x1FF#9).getLsbD 8 = true ∧ (0x080#9).getLsbD 8 = false ∧ (0x080#9).getLsbD 7 = true ∧
    (0x07F#9).getLsbD 8 = false ∧ (0x07F#9).getLsbD 7 = false ∧
    (withSched [⟨0#1, .token 0x080#9⟩] (decAt .w8 0 .drain)).host.sched = ⟨0#1, .token 0x080#9⟩ :: [] := by decide

theorem witness_DecodeEncodeAgree :
    Instr.wf 8 (.encStart 255) = true ∧ encodeWord (.encStart 255) = some (.command 1#1 255) ∧
    decodeWord (.command 1#1 255) = .ok (.encStart 255) ∧ encodeWord .encTerm = none ∧
    decodeWord (.token (1#1 ++ 0xFF#8)) = .ok .decEnd := by decide

/-- A port word that decodes, one that does not, a call, ENC's step enabled and not enabled, an idle turn, an accepted
command, a held one, and a command turn with no command. -/
theorem witness_StepRunsOfferedOperation :
    presented (withSched [turnEnd] (at0 .w8)) = some (.token 0x100#9) ∧
    presented (withSched [turnStart] (at0 .w8)) = some (.command 0#1 0) ∧
    (presented (withSched [turnOf (.call (.maxBytes 8))] (at0 .w8)) = none ∧
      (currentTurn (withSched [turnOf (.call (.maxBytes 8))] (at0 .w8))).offer = .call (.maxBytes 8)) ∧
    presented (withSched [turnEnc] (at0 .w8)) = none ∧ internalStep (at0 .w8).enc = none ∧
    internalStep (encAt .w8 ⟨0, 0, false, true⟩).enc = some .encTerm ∧
    presented (withSched [turnOf .idle] (at0 .w8)) = none ∧
    offered (withSched [turnStart] (present [255, 9] (at0 .w8))) = some (.encStart 255) ∧
    (takeTurn (withSched [turnStart] (present [255, 9] (at0 .w8)))).host = ⟨[], [9]⟩ ∧
    offered (withSched [turnStart] (present [255] (encAt .w8 ⟨0, 0, false, true⟩))) = some (.encStart 255) ∧
    (takeTurn (withSched [turnStart] (present [255] (encAt .w8 ⟨0, 0, false, true⟩)))).host = ⟨[], [255]⟩ ∧
    offered (withSched [turnStart] (at0 .w8)) = none := by decide

/-- A token on the ports; a step that emits; a step that reports. -/
theorem witness_StrobesMarkEvents :
    (inPorts (withSched [turnEnd] (at0 .w8))).rst = 0#1 ∧ (inPorts (withSched [turnEnd] (at0 .w8))).dValid = 1#1 ∧
    after (·.seen.eOut) (step (withSched [turnEnc] (encAt .w8 ⟨127, 0, true, true⟩))) = some (some 0x7F#8) ∧
    after (fun t => (t.seen.dDone, t.seen.reports)) (step (withSched [turnEnd] (decAt .w8 255 .term))) =
      some (true, [.ok 255]) := by decide

theorem witness_EncAndDecStepsCommute :
    isEncInstr (.encStart 255) = true ∧ isDecInstr .decEnd = true ∧ Instr.wf (at0 .w8).cfg.W (.encStart 255) = true := by
  decide

theorem witness_InterleavingGivesEachUnitItsOwnRun :
    (∀ t ∈ [turnStart, turnByte 0x81#8, turnEnc, turnOf (.wire 0x00#8), turnEnd],
      isEncTurn t = true ∨ isDecTurn t = true) ∧
    (∀ v ∈ (present [255] (at0 .w8)).host.cmds, v ≤ maxValue (present [255] (at0 .w8)).cfg.W) := by decide

/-- The invariant holds in mid-operation of both units, at its bounds, and the step there gives a next state. -/
theorem witness_EveryStepKeepsTheInvariant :
    (setDec ⟨128, .cont, ⟨.ok, 255⟩⟩ (encAt .w8 ⟨255, 1, false, true⟩)).Inv ∧
    (after (·.enc) (step (setDec ⟨128, .cont, ⟨.ok, 255⟩⟩ (encAt .w8 ⟨255, 1, false, true⟩)))).isSome = true :=
  ⟨⟨⟨by decide, by decide, by decide, by decide⟩, fun _ => by decide,
    show 128 % 128 = 0 ∧ 128 ≤ lim 8 * 128 by decide, fun h => absurd rfl h⟩, by decide⟩

theorem witness_MBytesPortIsConstant :
    ∃ t, step (withSched [turnReset] (at0 .w8)) = .next t ∧ (outPorts t).mBytes = 2 := ⟨_, rfl, rfl⟩

/-- The largest operand, accepted and held. -/
theorem witness_EncStartLoadsOrHolds :
    255 ≤ 2 ^ (at0 .w8).cfg.W - 1 ∧ (at0 .w8).enc.busy = false ∧ (encAt .w8 ⟨255, 1, false, true⟩).enc.busy = true := by
  decide

/-- A non-zero digit, an interior zero, a leading zero, and the top position when 7 divides the width. -/
theorem witness_EncDigitEmitsOrSkips :
    EncInv 16 ⟨65535, 2, false, true⟩ ∧ 65535 / 2 ^ (7 * 2) ≠ 0 ∧ EncInv 16 ⟨0, 1, true, true⟩ ∧
    EncInv 16 ⟨300, 2, false, true⟩ ∧ 300 / 2 ^ (7 * 2) = 0 ∧
    EncInv 7 ⟨127, 1, false, true⟩ ∧ 7 ∣ Config.w7.W ∧ Config.w7.W / 7 = 1 ∧ 127 < 2 ^ Config.w7.W :=
  ⟨fun _ => by decide, by decide, fun _ => by decide, fun _ => by decide, by decide, fun _ => by decide, by decide⟩

theorem witness_EncTermEmitsTheRemainder : EncInv 16 ⟨127, 0, true, true⟩ := fun _ => by decide

/-- ENC idle with nothing offered; ENC busy at its last and at an earlier position; ENC busy in an idle turn; the
largest Value accepted. -/
theorem witness_EncRunsToItsTerminalByte :
    ((at0 .w8).enc.busy = false ∧ offered (at0 .w8) = none ∧ (after (·.enc) (step (at0 .w8))).isSome = true) ∧
    (encAt .w8 ⟨0, 0, true, true⟩).enc.busy = true ∧
    offered (withSched [turnEnc] (encAt .w8 ⟨0, 0, true, true⟩)) = some .encTerm ∧
    offered (withSched [turnEnc] (encAt .w8 ⟨0, 1, true, true⟩)) = some .encDigit ∧
    offered (withSched [turnOf .idle] (encAt .w8 ⟨0, 1, true, true⟩)) = none ∧ 255 < 2 ^ (at0 .w8).cfg.W := by decide

theorem witness_EncoderNeverFailsNorTouchesDec :
    isEncInstr .encDigit = true ∧ isEncInstr .encTerm = true ∧ isEncInstr (.encStart 255) = true ∧
    Instr.wf (at0 .w8).cfg.W (.encStart 255) = true := by decide

/-- For EncodeCallGivesClosedForm, EncodeOutputProperties, DecodeOfEncodeIsIdentity and NonCanonicalInputIsAccepted: the
largest Value of the smallest width, and 0. -/
theorem witness_EncodeCallGivesClosedForm : 7 ≤ 7 ∧ 127 < 2 ^ 7 ∧ 0 < 2 ^ 7 ∧ canonicalSeq 127 = [0x7F#8] := by decide
theorem witness_EncodeOutputProperties : 7 ≤ 8 ∧ 255 < 2 ^ 8 ∧ canonicalLength 255 = 2 ∧ canonicalLength 0 = 1 := by
  decide

theorem witness_EncStepsRefineEncode : (at0 .w8).enc.busy = false ∧ 255 < 2 ^ (at0 .w8).cfg.W := by decide

/-- Each of the five cases of R111, at width 8. -/
theorem witness_DecodeCallGivesClosedForm :
    7 ≤ 8 ∧ closedDecode [] 8 = .err .emptyInput ∧ closedDecode [0x82#8] 8 = .err .overflow ∧
    closedDecode [0x81#8] 8 = .err .unfinishedSequence ∧ closedDecode [0x00#8, 0x00#8] 8 = .err .extraData ∧
    closedDecode [0x81#8, 0x7F#8] 8 = .ok 255 := by decide

/-- The sum at `LIM` and one above it, from IDLE and from CONT; TERM and DRAIN. -/
theorem witness_DecContByPhase :
    0x0FF#9 &&& 0x180#9 = 0x080#9 ∧
    ((decAt .w8 0 .idle).dec.st = .idle ∧ 0 + (1#7).toNat ≤ 2 ^ ((at0 .w8).cfg.W - 7) - 1) ∧
    ((decAt .w16 384 .cont).dec.st = .cont ∧ 384 + (127#7).toNat = 2 ^ ((at0 .w16).cfg.W - 7) - 1) ∧
    2 ^ ((at0 .w8).cfg.W - 7) - 1 < 0 + (2#7).toNat ∧ 2 ^ ((at0 .w16).cfg.W - 7) - 1 < 512 + (0#7).toNat ∧
    (decAt .w8 0 .term).dec.st = .term ∧ (decAt .w8 0 .drain).dec.st = .drain := by decide

/-- The invariant in every phase, at the largest accumulator of each. -/
theorem witness_DecTermByPhase :
    0x07F#9 &&& 0x180#9 = 0x000#9 ∧ DecInv 8 ⟨0, .idle, ⟨.none, 0⟩⟩ ∧ DecInv 8 ⟨128, .cont, ⟨.none, 0⟩⟩ ∧
    DecInv 8 ⟨255, .term, ⟨.none, 0⟩⟩ ∧ DecInv 8 ⟨0, .drain, ⟨.overflow, 0⟩⟩ :=
  ⟨by decide, rfl, by unfold DecInv; decide, by unfold DecInv; decide, rfl⟩
theorem witness_DecEndByPhase :
    0x1FF#9 &&& 0x100#9 = 0x100#9 ∧ DecInv 8 ⟨0, .idle, ⟨.none, 0⟩⟩ ∧ DecInv 8 ⟨128, .cont, ⟨.none, 0⟩⟩ ∧
    DecInv 8 ⟨255, .term, ⟨.none, 0⟩⟩ ∧ DecInv 8 ⟨0, .drain, ⟨.overflow, 0⟩⟩ :=
  ⟨by decide, witness_DecTermByPhase.2⟩
theorem witness_WireBytesAreConsumedAsTokens :
    (decAt .w8 0 .idle).dec.st = .idle ∧ (decAt .w8 0 .idle).dec.acc + (1#7).toNat ≤ 2 ^ ((at0 .w8).cfg.W - 7) - 1 ∧
    DecInv (at0 .w8).cfg.W (decAt .w8 128 .cont).dec :=
  ⟨by decide, by decide, by show DecInv 8 ⟨128, .cont, ⟨.none, 0⟩⟩; unfold DecInv; decide⟩

/-- The largest accumulator with the largest payload; a sum at `LIM`; a sum above it. -/
theorem witness_DecoderArithmeticIsExact :
    DecInv Config.w8.W ⟨128, .cont, ⟨.none, 0⟩⟩ ∧ overflows Config.w8.W (addPayload 128 127#7) = true ∧
    DecInv Config.w8.W ⟨0, .idle, ⟨.none, 0⟩⟩ ∧ overflows Config.w8.W (addPayload 0 1#7) = false ∧
    overflows Config.w8.W (addPayload 0 2#7) = true :=
  ⟨by unfold DecInv; decide, by decide, rfl, by decide⟩

/-- The largest Value that fits width 8, and the smallest that does not. -/
theorem witness_OverflowCheckIsExact :
    7 ≤ 8 ∧ WellFormedSeq [0x81#8, 0x7F#8] ∧ seqValue [0x81#8, 0x7F#8] = 2 ^ 8 - 1 ∧
    WellFormedSeq [0x82#8, 0x00#8] ∧ seqValue [0x82#8, 0x00#8] = 2 ^ 8 :=
  ⟨by decide, ⟨[0x81#8], 0x7F#8, rfl, by decide, by decide⟩, by decide,
    ⟨[0x82#8], 0x00#8, rfl, by decide, by decide⟩, by decide⟩

theorem witness_NonCanonicalInputIsAccepted :
    7 ≤ 7 ∧ 127 ≤ 2 ^ 7 - 1 ∧ WellFormedSeq [0x80#8, 0x7F#8] ∧ seqValue [0x80#8, 0x7F#8] = 127 :=
  ⟨by decide, by decide, ⟨[0x80#8], 0x7F#8, rfl, by decide, by decide⟩, by decide⟩

theorem witness_DecoderHasNoLengthLimit :
    7 ≤ 8 ∧ [0x7F#8] ≠ [] ∧ opDecode [0x80#8, 0x80#8, 0x81#8, 0x7F#8] 8 = .ok 255 := by decide

theorem witness_OutcomeDependsOnWidthOnlyByOverflow :
    7 ≤ 16 ∧ 7 ≤ 32 ∧ opDecode [0x82#8, 0x01#8] 16 ≠ .err .overflow ∧ opDecode [0x82#8, 0x01#8] 32 ≠ .err .overflow := by
  decide

theorem witness_DecodeOfEncodeIsIdentity : 7 ≤ 7 ∧ 127 < 2 ^ 7 := by decide

/-- A padded encoding and a canonical one. -/
theorem witness_OnlyPaddedEncodingsDecode :
    7 ≤ 7 ∧ opDecode [0x80#8, 0x7F#8] 7 = .ok 127 ∧ opDecode [0x7F#8] 7 = .ok 127 ∧ opEncode 127 7 = [0x7F#8] := by decide

/-- For DecStepsRefineDecode, OneOutcomePerSequenceInOrder and LoopbackReportsTheValue: the machine after reset. -/
theorem witness_DecStepsRefineDecode : State.reset.dec.st = .idle ∧ State.reset.dec.acc = 0 := by decide
theorem witness_OneOutcomePerSequenceInOrder : (at0 .w8).dec.st = .idle ∧ (at0 .w8).dec.acc = 0 := by decide
theorem witness_LoopbackReportsTheValue :
    State.reset.enc.busy = false ∧ State.reset.dec.st = .idle ∧ State.reset.dec.acc = 0 ∧
    2 ^ 64 - 1 < 2 ^ State.reset.cfg.W := by decide

/-- One step for each of the five outcomes, and a RESET that writes `NONE`. -/
theorem witness_OutcomesByStepAndPhase :
    after (·.seen.reports) (exec .decEnd (decAt .w8 0 .idle)) = some [.err .emptyInput] ∧
    after (·.seen.reports) (exec .decEnd (decAt .w8 0 .cont)) = some [.err .unfinishedSequence] ∧
    after (·.seen.reports) (exec (.decTerm 1#7) (decAt .w8 1 .term)) = some [.err .extraData] ∧
    after (·.seen.reports) (exec (.decCont 2#7) (decAt .w8 0 .idle)) = some [.err .overflow] ∧
    after (·.seen.reports) (exec .decEnd (decAt .w8 255 .term)) = some [.ok 255] ∧
    after (outPorts · |>.dStatus) (exec .reset (setDec ⟨0, .idle, ⟨.ok, 1⟩⟩ (at0 .w8))) = some 0#3 ∧
    (outPorts (setDec ⟨0, .idle, ⟨.ok, 1⟩⟩ (at0 .w8))).dStatus = 1#3 := by decide

/-- An error raised by a byte and one raised by `END`. -/
theorem witness_ErrorEntryDoesExactlyThis :
    after (·.seen.reports) (exec (.decCont 2#7) (decAt .w8 0 .idle)) =
      some ((decAt .w8 0 .idle).seen.reports ++ [.err .overflow]) ∧
    after (·.seen.reports) (exec .decEnd (decAt .w8 0 .cont)) =
      some ((decAt .w8 0 .cont).seen.reports ++ [.err .unfinishedSequence]) := by decide

theorem witness_DrainDiscardsThenNextSequenceDecodes :
    (decAt .w8 0 .drain).dec.st = .drain ∧ (decAt .w8 0 .drain).dec.acc = 0 := by decide

/-- A reset beside a token. -/
theorem witness_ResetGivesTheResetValues :
    (withSched [⟨1#1, .token 0x080#9⟩] (at0 .w8)).host.sched = ⟨1#1, .token 0x080#9⟩ :: [] := by decide

/-- Two states that differ in all three unspecified fields, with an `ENC.START` offered, so that ENC ends busy. -/
theorem witness_UnspecifiedFieldsAreNeverRead :
    (present [255] (encAt .w8 ⟨7, 1, true, false⟩)).enc.busy = false ∧
    AgreeButUnspecified (present [255] (encAt .w8 ⟨7, 1, true, false⟩)) (present [255] (encAt .w8 ⟨9, 0, false, false⟩)) ∧
    after (·.enc.busy) (step (present [255] (encAt .w8 ⟨7, 1, true, false⟩))) = some true :=
  ⟨by decide, rfl, by decide⟩

theorem witness_StartIsHeldWhileBusy :
    (present [255] (encAt .w8 ⟨127, 1, false, true⟩)).enc.busy = true ∧
    (present [255] (encAt .w8 ⟨127, 1, false, true⟩)).host.cmds = 255 :: [] ∧ 255 < 2 ^ (at0 .w8).cfg.W ∧
    EncInv (at0 .w8).cfg.W ⟨127, 1, false, true⟩ := ⟨by decide, by decide, by decide, fun _ => by decide⟩

/-- A step that reports nothing and one that reports; a first token that reports and one that does not; widths 13
and 14. -/
theorem witness_ResultRegisterHoldsTheLatestOutcome :
    after (·.seen.dDone) (step (withSched [turnByte 0x00#8] (at0 .w8))) = some false ∧
    offered (withSched [turnByte 0x00#8] (at0 .w8)) ≠ some .reset ∧
    after (·.seen.dDone) (step (withSched [turnEnd] (at0 .w8))) = some true ∧
    offered (withSched [turnEnd] (at0 .w8)) ≠ some .reset ∧
    (at0 .w8).dec.st = .idle ∧ (at0 .w8).dec.acc = 0 ∧
    decodeToken 0x082#9 = .decCont 2#7 ∧ 2 ^ ((at0 .w8).cfg.W - 7) - 1 < (2#7).toNat ∧
    Config.W ⟨6⟩ = 13 ∧ 2 ^ (13 - 7) - 1 < (127#7).toNat ∧ Config.W ⟨7⟩ = 14 ∧ ¬ 2 ^ (14 - 7) - 1 < (127#7).toNat := by decide

/-- A state in each phase and with each status; a step that gives a next state. -/
theorem witness_StatusPortsCopyState :
    (decAt .w8 0 .idle).dec.st = .idle ∧ (decAt .w8 0 .cont).dec.st = .cont ∧ (decAt .w8 0 .term).dec.st = .term ∧
    (decAt .w8 0 .drain).dec.st = .drain ∧ (∀ st : Status, (setDec ⟨0, .idle, ⟨st, 0⟩⟩ (at0 .w8)).dec.res.status = st) ∧
    (after (·.cfg) (step (at0 .w8))).isSome = true :=
  ⟨rfl, rfl, rfl, rfl, fun _ => rfl, by decide⟩

theorem witness_ResetDoesWhatTheRuleSays :
    (currentTurn (withSched [⟨1#1, .token 0x080#9⟩] (decAt .w8 128 .cont))).rst = 1#1 := by decide

theorem witness_HeldStartHasNoEffectUntilLifted :
    (encAt .w8 ⟨127, 1, false, true⟩).enc.busy = true ∧ 255 < 2 ^ (at0 .w8).cfg.W ∧
    EncInv (at0 .w8).cfg.W ⟨127, 1, false, true⟩ := ⟨by decide, by decide, fun _ => by decide⟩

theorem witness_QuiescentBlockRests :
    Quiescent (at0 .w8) ∧ (at0 .w8).host = ⟨[], []⟩ ∧ (encAt .w8 ⟨0, 0, false, true⟩).enc.busy = true ∧
    (encAt .w8 ⟨0, 0, false, true⟩).host.sched = [] :=
  ⟨⟨rfl, rfl⟩, rfl, rfl, rfl⟩

end Sys2Proof.Tests
end

section
/-! PROOFS. The state family (10_state.md): the fields a reset leaves unspecified are not read while ENC is idle (R36),
and the status ports are copies of state (R33). -/

namespace Sys2Proof.Machine

open Sys2Proof

/-! ### States that differ in the unspecified fields only -/

/-- The state with other values in the three fields a reset leaves unspecified (R36). -/
def respecify (v i : Nat) (b : Bool) (s : State) : State :=
  { s with enc := { s.enc with val := v, idx := i, started := b } }

@[simp] theorem respecify_cfg (v i : Nat) (b : Bool) (s : State) : (respecify v i b s).cfg = s.cfg := rfl
@[simp] theorem respecify_dec (v i : Nat) (b : Bool) (s : State) : (respecify v i b s).dec = s.dec := rfl
@[simp] theorem respecify_enc_busy (v i : Nat) (b : Bool) (s : State) : (respecify v i b s).enc.busy = s.enc.busy := rfl

theorem agreeButUnspecified_iff (s s' : State) : AgreeButUnspecified s s' ↔ ∃ v i b, s' = respecify v i b s := by
  constructor
  · exact fun h => ⟨s'.enc.val, s'.enc.idx, s'.enc.started, h⟩
  · rintro ⟨v, i, b, rfl⟩
    rfl

theorem quiet_respecify (v i : Nat) (b : Bool) (s : State) : quiet (respecify v i b s) = respecify v i b (quiet s) := rfl

/-- If the first outcome is a next state, so is the second, and the two states differ at most in the unspecified fields
and not at all when ENC is busy in the first: the conclusion of R36's noninterference. -/
def OutcomesAlike (o o' : Host.Outcome State Fault Refusal) : Prop :=
  ∀ t, o = .next t → ∃ t', o' = .next t' ∧ AgreeButUnspecified t t' ∧ (t.enc.busy = true → t' = t)

theorem OutcomesAlike.same (o : Host.Outcome State Fault Refusal) : OutcomesAlike o o :=
  fun t h => ⟨t, h, rfl, fun _ => rfl⟩

theorem OutcomesAlike.respecify {t : State} (v i : Nat) (b : Bool) (hb : t.enc.busy = false) :
    OutcomesAlike (.next t) (.next (respecify v i b t)) := by
  rintro _ ⟨⟩
  exact ⟨_, rfl, rfl, fun h => absurd (hb.symm.trans h) Bool.false_ne_true⟩

/-! ### An idle ENC reads none of them -/

theorem internalStep_idle {e : Enc} (hb : e.busy = false) : internalStep e = none := by simp [internalStep, hb]

theorem execEncDigit_idle {s : State} (hb : s.enc.busy = false) : execEncDigit s = .next (quiet s) := by
  simp [execEncDigit, hb]

theorem execEncTerm_idle {s : State} (hb : s.enc.busy = false) : execEncTerm s = .next (quiet s) := by
  simp [execEncTerm, hb]

/-- The ports and the schedule do not show the three fields; only ENC's internal step does, and an idle ENC has none. -/
theorem offered_respecify {s : State} (v i : Nat) (b : Bool) (hb : s.enc.busy = false) :
    offered (respecify v i b s) = offered s := by
  have hports : presented (respecify v i b s) = presented s := rfl
  have hturn : currentTurn (respecify v i b s) = currentTurn s := rfl
  have hstep : internalStep (respecify v i b s).enc = internalStep s.enc := by
    rw [internalStep_idle hb, internalStep_idle (e := (respecify v i b s).enc) hb]
  unfold offered
  rw [hports, hturn, hstep]

theorem takeTurn_respecify {s : State} (v i : Nat) (b : Bool) (hb : s.enc.busy = false) :
    takeTurn (respecify v i b s) = respecify v i b (takeTurn s) := by
  rw [takeTurn, offered_respecify v i b hb]
  rfl

/-- `ENC.START` writes all three fields, so an accepted one erases the difference. -/
theorem execEncStart_respecify {s : State} (n v i : Nat) (b : Bool) (hb : s.enc.busy = false) :
    execEncStart n (respecify v i b s) = execEncStart n s := by
  unfold execEncStart
  rw [respecify_enc_busy, hb, respecify_cfg]
  rfl

/-- A DEC operation passes over ENC's fields. -/
theorem exec_dec_respecify {op : Instr} (v i : Nat) (b : Bool) {s : State} (hop : isDecInstr op = true)
    (hb : s.enc.busy = false) : OutcomesAlike (exec op s) (exec op (respecify v i b s)) := by
  obtain ⟨d, reps, done, h⟩ := exec_dec_local s hop
  rw [h s rfl rfl, h (respecify v i b s) rfl rfl]
  exact .respecify (t := decRecorded d reps done s) v i b hb

/-- No operation reads the three fields while ENC is idle: `ENC.START` and `RESET` overwrite them, every other operation
carries them along. -/
theorem exec_respecify (op : Instr) {s : State} (v i : Nat) (b : Bool) (hb : s.enc.busy = false) :
    OutcomesAlike (exec op s) (exec op (respecify v i b s)) := by
  cases op with
  | maxBytes w =>
    simp only [exec, execMaxBytes]
    split
    · exact .same _
    · exact .respecify v i b hb
  | encode n w =>
    simp only [exec, execEncode]
    split
    · exact .same _
    · split
      · exact .same _
      · exact .respecify v i b hb
  | decode bytes w =>
    simp only [exec, execDecode]
    split
    · exact .same _
    · exact .respecify v i b hb
  | encStart n =>
    simp only [exec, execEncStart_respecify n v i b hb]
    exact .same _
  | encDigit =>
    simp only [exec, execEncDigit_idle hb, execEncDigit_idle (s := respecify v i b s) hb]
    exact .respecify v i b hb
  | encTerm =>
    simp only [exec, execEncTerm_idle hb, execEncTerm_idle (s := respecify v i b s) hb]
    exact .respecify v i b hb
  | reset => exact .same _
  | decCont p | decTerm p | decEnd | cont p | term p => exact exec_dec_respecify v i b rfl hb

theorem step_respecify {s : State} (v i : Nat) (b : Bool) (hb : s.enc.busy = false) :
    OutcomesAlike (step s) (step (respecify v i b s)) := by
  have hoff := offered_respecify v i b hb
  cases ho : offered s with
  | none =>
    rw [step_none ho, step_none (hoff.trans ho), takeTurn_respecify v i b hb, quiet_respecify]
    exact .respecify v i b hb
  | some op =>
    rw [step_some ho, step_some (hoff.trans ho), takeTurn_respecify v i b hb]
    exact exec_respecify op v i b hb

/-- Settles O45: the two states offer the same operation, and by `exec_respecify` no operation tells them apart. -/
theorem unspecifiedFieldsAreNeverRead : Obligations.UnspecifiedFieldsAreNeverRead := by
  refine ⟨fun _ => ⟨rfl, rfl⟩, fun s => ⟨_, rfl, rfl, rfl⟩, fun s s' t hb hagree hstep => ?_⟩
  obtain ⟨v, i, b, rfl⟩ := (agreeButUnspecified_iff s s').mp hagree
  exact step_respecify v i b hb t hstep

/-! ### The status ports -/

/-- No step changes the configuration (R5). -/
theorem step_cfg {s t : State} (h : step s = .next t) : t.cfg = s.cfg := by
  rcases step_cases h with ⟨i, _, hexec⟩ | ⟨_, rfl⟩
  · exact (exec_cfg_host hexec).1
  · rfl

theorem outPorts_dPhase_of_st {s : State} {p : Phase} (h : s.dec.st = p) : (outPorts s).dPhase = phaseCode p :=
  congrArg phaseCode h

theorem outPorts_dStatus_of_status {s : State} {st : Status} (h : s.dec.res.status = st) :
    (outPorts s).dStatus = statusCode st :=
  congrArg statusCode h

/-- Settles O50: each port is the named field or its code, and the width stays by `step_cfg`. -/
theorem statusPortsCopyState : Obligations.StatusPortsCopyState := fun _ =>
  ⟨rfl, rfl,
    outPorts_dPhase_of_st, outPorts_dPhase_of_st, outPorts_dPhase_of_st, outPorts_dPhase_of_st,
    outPorts_dStatus_of_status, outPorts_dStatus_of_status, outPorts_dStatus_of_status,
    outPorts_dStatus_of_status, outPorts_dStatus_of_status, outPorts_dStatus_of_status,
    rfl, rfl, fun _ => step_cfg⟩

end Sys2Proof.Machine
end

section
/-! PROOFS. The memory family (20_memory.md): a token on the ports is what the step consumes (R67), and the strobes
mark the bytes and outcomes of a step (R52). -/

namespace Sys2Proof.Machine

open Sys2Proof

/-! ### A token on the ports -/

theorem inPorts_rst (s : State) : (inPorts s).rst = (currentTurn s).rst := by
  unfold inPorts
  split
  · split <;> rfl
  all_goals rfl

/-- `d_valid = 1` in exactly two kinds of turn: a token, or a wire byte standing on the token port. -/
theorem dValid_cases {s : State} (h : (inPorts s).dValid = 1#1) :
    (∃ t, (currentTurn s).offer = .token t ∧ (inPorts s).dTok = some t) ∨
    (∃ b, (currentTurn s).offer = .wire b ∧ (inPorts s).dTok = some (byteToken b)) := by
  cases ho : (currentTurn s).offer with
  | token t => exact .inl ⟨t, rfl, by simp [inPorts, ho]⟩
  | wire b => exact .inr ⟨b, rfl, by simp [inPorts, ho, byteToken]⟩
  | command => cases hc : s.host.cmds <;> simp [inPorts, ho, hc] at h
  | idle | encStep | call c => simp [inPorts, ho] at h

theorem offered_of_token {s : State} {t : Token} (hr : (currentTurn s).rst = 0#1)
    (ho : (currentTurn s).offer = .token t) : offered s = some (decodeToken t) := by
  have hp : presented s = some (.token t) := by simp [presented, hr, ho]
  simp [offered, hp, readPort, decodeWord]

theorem offered_of_wire {s : State} {b : Byte} (hr : (currentTurn s).rst = 0#1)
    (ho : (currentTurn s).offer = .wire b) : offered s = some (decodeByte b) := by
  have hp : presented s = some (.wire b) := by simp [presented, hr, ho]
  simp [offered, hp, readPort, decodeWord]

/-- A wire byte is consumed as the `BYTE` token that carries it (R67). -/
theorem exec_decodeByte (b : Byte) (s : State) : exec (decodeByte b) s = exec (decodeToken (byteToken b)) s := by
  rw [decodeToken_byteToken, decodeByte]
  split <;> rfl

theorem isDecInstr_decodeToken (t : Token) : isDecInstr (decodeToken t) = true := by
  unfold decodeToken
  split
  · rfl
  · split <;> rfl

/-- Every token is consumed in every phase: DEC is always ready (R67). -/
theorem exec_decodeToken_total (t : Token) (s : State) : ∃ u, exec (decodeToken t) s = .next u := by
  obtain ⟨d, reps, done, h⟩ := exec_dec_local s (isDecInstr_decodeToken t)
  exact ⟨_, h s rfl rfl⟩

/-- With no reset beside it, the token on the ports is the operation of the step. -/
theorem step_of_dValid {s : State} (hr : (inPorts s).rst = 0#1) (hv : (inPorts s).dValid = 1#1) :
    ∃ tok, (inPorts s).dTok = some tok ∧ step s = exec (decodeToken tok) (takeTurn s) := by
  rw [inPorts_rst] at hr
  rcases dValid_cases hv with ⟨t, ho, htok⟩ | ⟨b, ho, htok⟩
  · exact ⟨t, htok, step_some (offered_of_token hr ho)⟩
  · exact ⟨byteToken b, htok, (step_some (offered_of_wire hr ho)).trans (exec_decodeByte b _)⟩

/-! ### The events of a step -/

/-- What any step can record: `exec_events` for the operation it runs, and nothing where it runs none. -/
theorem step_events {s t : State} (h : step s = .next t) :
    ((t.seen.sink = s.seen.sink ∧ t.seen.eOut = none) ∨ ∃ b, t.seen.sink = s.seen.sink ++ [b] ∧ t.seen.eOut = some b) ∧
    ((t.seen.reports = s.seen.reports ∧ t.seen.dDone = false ∧
        (offered s ≠ some .reset → t.dec.res = s.dec.res)) ∨
      ∃ o, t.seen.reports = s.seen.reports ++ [o] ∧ t.seen.dDone = true ∧ t.dec.res = resOf o) := by
  rcases step_cases h with ⟨i, ho, hexec⟩ | ⟨_, rfl⟩
  · simpa [ho] using exec_events hexec
  · exact ⟨.inl ⟨rfl, rfl⟩, .inl ⟨rfl, rfl, fun _ => rfl⟩⟩

theorem outPorts_eOutValid_of_eOut_none {t : State} (h : t.seen.eOut = none) : (outPorts t).eOutValid = false := by
  simp [outPorts, h]

theorem outPorts_eOutValid_of_eOut_some {t : State} {b : Byte} (h : t.seen.eOut = some b) :
    (outPorts t).eOutValid = true := by
  simp [outPorts, h]

/-- Settles O12: tokens by `step_of_dValid`; bytes and outcomes by `step_events`, read at the ports. -/
theorem strobesMarkEvents : Obligations.StrobesMarkEvents := by
  refine ⟨fun s hr hv => ?_, fun s t hstep => ?_⟩
  · obtain ⟨tok, htok, hstep⟩ := step_of_dValid hr hv
    obtain ⟨u, hu⟩ := exec_decodeToken_total tok (takeTurn s)
    exact ⟨tok, decodeToken tok, u, htok, rfl, hu, hstep.trans hu⟩
  · obtain ⟨hbyte, hreport⟩ := step_events hstep
    constructor
    · rcases hbyte with ⟨hsink, hout⟩ | ⟨b, hsink, hout⟩
      · exact .inl ⟨hsink, outPorts_eOutValid_of_eOut_none hout⟩
      · exact .inr ⟨b, hsink, outPorts_eOutValid_of_eOut_some hout, hout⟩
    · rcases hreport with ⟨hreps, hdone, _⟩ | ⟨o, hreps, hdone, hres⟩
      · exact .inl ⟨hreps, hdone⟩
      · refine .inr ⟨o, hreps, hdone, hres.trans ?_⟩
        rcases o with v | k
        · rfl
        · cases k <;> rfl

end Sys2Proof.Machine
end

section
/-! PROOFS. The encoding family (30_encoding.md): the two byte classes (R61), the sequence grammar and its ill-formed
shapes (R62), and the token format on an always-ready port (R67). -/

namespace Sys2Proof.Machine

open Sys2Proof

/-! ### The fields of a byte as the source's masks -/

theorem byteContinues_iff_and_ne_zero (b : Byte) : byteContinues b = true ↔ b &&& 0x80#8 ≠ 0#8 := by
  revert b; decide

theorem bytePayload_eq_and (b : Byte) : bytePayload b = (b &&& 0x7F#8).setWidth 7 := by
  revert b; decide

theorem toNat_and_0x7F (b : Byte) : (b &&& 0x7F#8).toNat = (bytePayload b).toNat := by
  revert b; decide

/-- Setting the flag again over the payload gives a byte back exactly when its flag was set. -/
theorem or_and_eq_self_iff (b : Byte) : b = 0x80#8 ||| (b &&& 0x7F#8) ↔ byteContinues b = true := by
  revert b; decide

theorem decodeByte_of_continues {b : Byte} (h : byteContinues b = true) : decodeByte b = .cont (bytePayload b) :=
  if_pos h

theorem decodeByte_of_not_continues {b : Byte} (h : byteContinues b = false) :
    decodeByte b = .term (bytePayload b) := by
  simp [decodeByte, h]

/-- Settles O6: the mask with `0x80` is the flag, and `byte_split` gives the ranges and the values of each class. -/
theorem wireByteClasses : Obligations.WireByteClasses := by
  intro b
  have hsplit := byte_split b
  have hpayload := bytePayload_lt b
  rw [← bytePayload_eq_and, toNat_and_0x7F, or_and_eq_self_iff]
  constructor
  · intro hmask
    have hc : byteContinues b = true := (byteContinues_iff_and_ne_zero b).mpr hmask
    rw [hc, if_pos rfl] at hsplit
    exact ⟨congrArg _ (decodeByte_of_continues hc), by omega, hsplit, hc⟩
  · intro hmask
    have hc : byteContinues b = false :=
      Bool.eq_false_iff.mpr fun h => (byteContinues_iff_and_ne_zero b).mp h hmask
    rw [hc, if_neg Bool.false_ne_true, Nat.zero_add] at hsplit
    exact ⟨congrArg _ (decodeByte_of_not_continues hc), by omega, hsplit⟩

/-! ### The grammar of sequences -/

/-- The leading continuation bytes end at the first terminal byte, whatever follows. -/
theorem contPrefix_append_term {pre : List Byte} {t : Byte} (rest : List Byte)
    (hpre : ∀ b ∈ pre, byteContinues b = true) (ht : byteContinues t = false) :
    contPrefix (pre ++ t :: rest) = pre := by
  rw [contPrefix, List.takeWhile_append_of_pos hpre, List.takeWhile_cons_of_neg (by simp [ht]), List.append_nil]

theorem wellFormedSeq_ne_nil {s : List Byte} (h : WellFormedSeq s) : s ≠ [] := by
  obtain ⟨init, last, rfl, -, -⟩ := h
  simp

theorem not_wellFormedSeq_of_all_continue {s : List Byte} (hs : ∀ b ∈ s, byteContinues b = true) :
    ¬ WellFormedSeq s := by
  rintro ⟨init, last, rfl, -, hlast⟩
  exact Bool.false_ne_true (hlast.symm.trans (hs last (by simp)))

/-- Both readings of the sequence have the same first terminal byte, so nothing can follow it in one only. -/
theorem not_wellFormedSeq_of_extra {pre : List Byte} {t b : Byte} {rest : List Byte}
    (hpre : ∀ x ∈ pre, byteContinues x = true) (ht : byteContinues t = false) :
    ¬ WellFormedSeq (pre ++ t :: b :: rest) := by
  rintro ⟨init, last, heq, hinit, hlast⟩
  have hlead : pre = init := by
    rw [← contPrefix_append_term (b :: rest) hpre ht, heq, contPrefix_append_term [] hinit hlast]
  subst hlead
  simp at heq

/-- The three ill-formed shapes of R62 are all there are: what follows the leading continuation bytes decides. -/
theorem wellFormedSeq_iff (s : List Byte) :
    WellFormedSeq s ↔
      ¬ (s = [] ∨ (s ≠ [] ∧ ∀ b ∈ s, byteContinues b = true) ∨
        ∃ pre t b rest, s = pre ++ t :: b :: rest ∧ (∀ x ∈ pre, byteContinues x = true) ∧
          byteContinues t = false) := by
  constructor
  · rintro hwf (hnil | ⟨-, hall⟩ | ⟨pre, t, b, rest, rfl, hpre, ht⟩)
    · exact wellFormedSeq_ne_nil hwf hnil
    · exact not_wellFormedSeq_of_all_continue hall hwf
    · exact not_wellFormedSeq_of_extra hpre ht hwf
  · intro hshape
    obtain ⟨hpre, hs | ⟨t, rest, ht, hs⟩⟩ := contPrefix_split s
    · have hall : ∀ b ∈ s, byteContinues b = true := hs ▸ hpre
      exact absurd ((em (s = [])).imp_right fun hne => .inl ⟨hne, hall⟩) hshape
    · cases rest with
      | nil => exact ⟨contPrefix s, t, hs, hpre, ht⟩
      | cons b rest => exact absurd (.inr (.inr ⟨contPrefix s, t, b, rest, hs, hpre, ht⟩)) hshape

/-- Settles O7: the grammar by `wellFormedSeq_iff`, the errors by the closed forms of the Decoder's loop. -/
theorem illFormedShapesAndTheirErrors : Obligations.IllFormedShapesAndTheirErrors := by
  refine fun w s _ => ⟨wellFormedSeq_ne_nil, wellFormedSeq_iff s, rfl, ?_, ?_⟩
  · rintro ⟨hne, hall⟩
    exact opDecode_prefix_only w hne hall
  · rintro pre t b rest rfl hpre ht
    rw [opDecode_prefix_term w (b :: rest) hpre ht, if_neg (List.cons_ne_nil b rest)]

/-! ### The token port -/

theorem byteContinues_tokenByte (t : Token) : byteContinues (tokenByte t) = t.getLsbD 7 := by
  simp [byteContinues, tokenByte]

theorem bytePayload_tokenByte (t : Token) : bytePayload (tokenByte t) = t.extractLsb' 0 7 := by
  ext i hi
  simp [bytePayload, tokenByte]

theorem decodeToken_end {t : Token} (hend : t.getLsbD 8 = true) : decodeToken t = .decEnd :=
  if_pos hend

theorem decodeToken_byte {t : Token} (hend : t.getLsbD 8 = false) :
    decodeToken t = if t.getLsbD 7 then .decCont (t.extractLsb' 0 7) else .decTerm (t.extractLsb' 0 7) := by
  rw [decodeToken, tokenIsEnd, hend, if_neg Bool.false_ne_true, byteContinues_tokenByte, bytePayload_tokenByte]

/-- A state with a turn at the head of its schedule is the rest of the schedule with that turn put in front. -/
theorem eq_withTurn_of_sched {s : State} {turn : Turn} {ts : List Turn} (h : s.host.sched = turn :: ts) :
    s = withTurn turn { s with host := { s.host with sched := ts } } := by
  rw [withTurn, ← h]

theorem inPorts_withTurn_token (t : Token) (s : State) :
    inPorts (withTurn (turnOf (.token t)) s) = ⟨0#1, 0#1, none, 1#1, some t⟩ := rfl

/-- Settles O8: the format by the two tests of `decodeToken`, the consumption by `step_token`, since every token's
operation completes in every state and leaves the host's side alone. -/
theorem tokenFormatAlwaysReady : Obligations.TokenFormatAlwaysReady := by
  refine ⟨fun t => ⟨fun hend => ?_, fun hend hcont => ?_, fun hend hcont => ?_⟩, fun s t ts hsched => ?_⟩
  · exact congrArg _ (decodeToken_end hend)
  · rw [decodeWord, decodeToken_byte hend, hcont, if_pos rfl]
  · rw [decodeWord, decodeToken_byte hend, hcont, if_neg Bool.false_ne_true]
  · have hs : s = withTurn (turnOf (.token t)) { s with host := { s.host with sched := ts } } :=
      eq_withTurn_of_sched hsched
    have hports : inPorts s = ⟨0#1, 0#1, none, 1#1, some t⟩ := by rw [hs, inPorts_withTurn_token]
    obtain ⟨u, hu⟩ := exec_decodeToken_total t { s with host := { s.host with sched := ts } }
    have hstep : step s = .next u := by rw [hs, step_token, hu]
    obtain ⟨-, hhost⟩ := exec_cfg_host hu
    exact ⟨by rw [hports], by rw [hports], decodeToken t, u, rfl, hu, hstep, by rw [hhost]⟩

end Sys2Proof.Machine
end

section
/-! PROOFS. The encoder family (41_encoder.md): what each step of ENC does (R92, R93, R94), how long an operation runs
(R95), and that no step of ENC fails or meets DEC (R101). -/

namespace Sys2Proof.Machine

open Sys2Proof

/-! ### The whole next state of each step of ENC -/

theorem exec_encStart_accepted {s : State} {v : Nat} (hv : v < 2 ^ s.cfg.W) (hb : s.enc.busy = false) :
    exec (.encStart v) s = .next { s with
      enc := { val := v, idx := maxBytes s.cfg.W - 1, started := false, busy := true }, seen := silent s.seen } := by
  rcases execEncStart_cases v s with ⟨hwide, _⟩ | ⟨_, hbusy, _⟩ | ⟨_, _, h⟩
  · exact absurd hv (Nat.not_lt.mpr hwide)
  · simp [hb] at hbusy
  · exact h

theorem exec_encStart_held {s : State} {v : Nat} (hv : v < 2 ^ s.cfg.W) (hb : s.enc.busy = true) :
    exec (.encStart v) s = .next { s with seen := silent s.seen } := by
  rcases execEncStart_cases v s with ⟨hwide, _⟩ | ⟨_, _, h⟩ | ⟨_, hidle, _⟩
  · exact absurd hv (Nat.not_lt.mpr hwide)
  · exact h
  · simp [hb] at hidle

theorem exec_encDigit_emits {s : State} (hb : s.enc.busy = true) (hi : s.enc.idx ≠ 0)
    (hd : topDigit s.enc.val s.enc.idx ≠ 0 ∨ s.enc.started = true) :
    exec .encDigit s = .next { s with
      enc := { val := s.enc.val % weight s.enc.idx, idx := s.enc.idx - 1, started := true, busy := true }
      seen := emitted (contByte (topDigit s.enc.val s.enc.idx)) s.seen } := by
  rcases execEncDigit_cases s with ⟨_, _, _, h⟩ | ⟨_, _, hzero, hfirst, _⟩ | ⟨hoff, _⟩
  · exact h
  · simp [hzero, hfirst] at hd
  · simp [hb, hi] at hoff

theorem exec_encDigit_skips {s : State} (hb : s.enc.busy = true) (hi : s.enc.idx ≠ 0)
    (hd : topDigit s.enc.val s.enc.idx = 0) (hs : s.enc.started = false) :
    exec .encDigit s = .next { s with enc := { s.enc with idx := s.enc.idx - 1 }, seen := silent s.seen } := by
  rcases execEncDigit_cases s with ⟨_, _, hemit, _⟩ | ⟨_, _, _, _, h⟩ | ⟨hoff, _⟩
  · simp [hd, hs] at hemit
  · exact h
  · simp [hb, hi] at hoff

theorem exec_encDigit_disabled {s : State} (h : ¬ (s.enc.busy = true ∧ s.enc.idx ≠ 0)) :
    exec .encDigit s = .next { s with seen := silent s.seen } := by
  rcases execEncDigit_cases s with ⟨hb, hi, _⟩ | ⟨hb, hi, _⟩ | ⟨_, hquiet⟩
  · exact absurd ⟨hb, hi⟩ h
  · exact absurd ⟨hb, hi⟩ h
  · exact hquiet

theorem exec_encTerm_emits {s : State} (hb : s.enc.busy = true) (hi : s.enc.idx = 0) :
    exec .encTerm s = .next { s with
      enc := { s.enc with busy := false }, seen := emitted (termByte s.enc.val) s.seen } := by
  rcases execEncTerm_cases s with ⟨_, _, h⟩ | ⟨hoff, _⟩
  · exact h
  · simp [hb, hi] at hoff

theorem exec_encTerm_disabled {s : State} (h : ¬ (s.enc.busy = true ∧ s.enc.idx = 0)) :
    exec .encTerm s = .next { s with seen := silent s.seen } := by
  rcases execEncTerm_cases s with ⟨hb, hi, _⟩ | ⟨_, hquiet⟩
  · exact absurd ⟨hb, hi⟩ h
  · exact hquiet

/-! ### What of ENC the other steps touch -/

/-- Only ENC's own steps and RESET write ENC's fields or the sink (R42). -/
theorem exec_keeps_enc {i : Instr} {s t : State} (hi : isEncInstr i = false) (hr : i ≠ .reset)
    (h : exec i s = .next t) : t.enc = s.enc ∧ t.seen.sink = s.seen.sink := by
  have dec (hdec : isDecInstr i = true) : t.enc = s.enc ∧ t.seen.sink = s.seen.sink := by
    obtain ⟨d, reps, done, hlocal⟩ := exec_dec_local s hdec
    cases (hlocal s rfl rfl).symm.trans h
    exact ⟨rfl, rfl⟩
  cases i with
  | maxBytes w =>
    simp only [exec, execMaxBytes] at h; split at h
    · cases h
    · cases h; exact ⟨rfl, rfl⟩
  | encode v w =>
    simp only [exec, execEncode] at h; split at h
    · cases h
    · split at h
      · cases h
      · cases h; exact ⟨rfl, rfl⟩
  | decode bytes w =>
    simp only [exec, execDecode] at h; split at h
    · cases h
    · cases h; exact ⟨rfl, rfl⟩
  | encStart v | encDigit | encTerm => cases hi
  | decCont p | decTerm p | decEnd | cont p | term p => exact dec rfl
  | reset => exact absurd rfl hr

/-- An idle ENC has no internal step to take (R95). -/
theorem exec_keeps_idle_enc {i : Instr} {s t : State} (hb : s.enc.busy = false) (hs : ∀ v, i ≠ .encStart v)
    (hr : i ≠ .reset) (h : exec i s = .next t) : t.enc = s.enc ∧ t.seen.sink = s.seen.sink := by
  cases i with
  | encStart v => exact absurd rfl (hs v)
  | encDigit => cases (exec_encDigit_disabled (by simp [hb])).symm.trans h; exact ⟨rfl, rfl⟩
  | encTerm => cases (exec_encTerm_disabled (by simp [hb])).symm.trans h; exact ⟨rfl, rfl⟩
  | _ => exact exec_keeps_enc rfl hr h

/-- A busy ENC holds `ENC.START` off (R164). -/
theorem exec_keeps_busy_enc {i : Instr} {s t : State} (hb : s.enc.busy = true) (hd : i ≠ .encDigit)
    (ht : i ≠ .encTerm) (hr : i ≠ .reset) (h : exec i s = .next t) :
    t.enc = s.enc ∧ t.seen.sink = s.seen.sink := by
  cases i with
  | encDigit => exact absurd rfl hd
  | encTerm => exact absurd rfl ht
  | encStart v =>
    rcases execEncStart_cases v s with ⟨_, hrefused⟩ | ⟨_, _, hheld⟩ | ⟨_, hidle, _⟩
    · cases hrefused.symm.trans h
    · cases hheld.symm.trans h; exact ⟨rfl, rfl⟩
    · simp [hb] at hidle
  | _ => exact exec_keeps_enc rfl hr h

/-- What the operation of a step leaves of ENC and the sink, the step leaves of them. -/
theorem step_keeps_enc {s t : State} (h : step s = .next t)
    (hexec : ∀ i, offered s = some i → exec i (takeTurn s) = .next t →
      t.enc = (takeTurn s).enc ∧ t.seen.sink = (takeTurn s).seen.sink) :
    t.enc = s.enc ∧ t.seen.sink = s.seen.sink := by
  rcases step_cases h with ⟨i, ho, hi⟩ | ⟨_, rfl⟩
  · exact hexec i ho hi
  · exact ⟨rfl, rfl⟩

/-! ### The run of a started operation -/

theorem internalStep_busy {e : Enc} (hb : e.busy = true) :
    internalStep e = some (if e.idx = 0 then .encTerm else .encDigit) := by
  rw [internalStep, if_pos hb, apply_ite some]

/-- Emitting or not, `ENC.DIGIT` goes down one position and ENC stays busy (R93). -/
theorem exec_encDigit_descends {s : State} (hb : s.enc.busy = true) (hi : s.enc.idx ≠ 0) :
    ∃ t, exec .encDigit s = .next t ∧ t.enc.busy = true ∧ t.enc.idx = s.enc.idx - 1 := by
  by_cases hd : topDigit s.enc.val s.enc.idx ≠ 0 ∨ s.enc.started = true
  · exact ⟨_, exec_encDigit_emits hb hi hd, rfl, rfl⟩
  · obtain ⟨hzero, hfirst⟩ := not_or.mp hd
    exact ⟨_, exec_encDigit_skips hb hi (not_not.mp hzero) (eq_false_of_ne_true hfirst), hb, rfl⟩

theorem exists_withTurn_of_sched {s : State} {turn : Turn} {ts : List Turn} (h : s.host.sched = turn :: ts) :
    ∃ r, s = withTurn turn r ∧ r.host.sched = ts :=
  ⟨_, eq_withTurn_of_sched h, rfl⟩

/-- A turn of ENC above position 0 is a descent (R93, R95). -/
theorem encTurn_descends {s : State} {ts : List Turn} (hb : s.enc.busy = true) (hi : s.enc.idx ≠ 0)
    (hs : s.host.sched = turnEnc :: ts) :
    ∃ t, step s = .next t ∧ t.enc.busy = true ∧ t.enc.idx = s.enc.idx - 1 ∧ t.host.sched = ts := by
  obtain ⟨r, rfl, hr⟩ := exists_withTurn_of_sched hs
  obtain ⟨t, ht, htb, hti⟩ := exec_encDigit_descends (s := r) hb hi
  obtain ⟨-, hhost⟩ := exec_cfg_host ht
  exact ⟨t, (step_enc_digit (s := r) hb hi).trans ht, htb, hti, by rw [hhost, hr]⟩

/-- A turn of ENC at position 0 ends the operation (R94, R95). -/
theorem encTurn_ends {s : State} {ts : List Turn} (hb : s.enc.busy = true) (hi : s.enc.idx = 0)
    (hs : s.host.sched = turnEnc :: ts) : ∃ t, step s = .next t ∧ t.enc.busy = false := by
  obtain ⟨r, rfl, -⟩ := exists_withTurn_of_sched hs
  exact ⟨_, (step_enc_term (s := r) hb hi).trans (exec_encTerm_emits (s := r) hb hi), rfl⟩

/-- While positions are left, each turn of ENC goes down one of them. -/
theorem encTurns_descend (n : Nat) : ∀ (s : State) (ts : List Turn), s.enc.busy = true → n ≤ s.enc.idx →
    s.host.sched = List.replicate n turnEnc ++ ts →
    ∃ t, StepsTo n s t ∧ t.enc.busy = true ∧ t.enc.idx = s.enc.idx - n ∧ t.host.sched = ts := by
  induction n with
  | zero => exact fun s ts hb _ hs => ⟨s, (StepsTo_zero s s).mpr rfl, hb, rfl, hs⟩
  | succ n ih =>
    intro s ts hb hn hs
    obtain ⟨u, hstep, hub, hui, hus⟩ := encTurn_descends hb (by omega) hs
    obtain ⟨t, hrun, htb, hti, hts⟩ := ih u ts hub (by omega) hus
    exact ⟨t, StepsTo_cons hstep hrun, htb, by omega, hts⟩

/-- A busy ENC is still busy after as many of its turns as positions are left, and not after one more (R95). -/
theorem encRun_ends_after_idx {s : State} (hb : s.enc.busy = true) :
    (∀ n, n ≤ s.enc.idx → ∃ t, StepsTo n (schedule (List.replicate n turnEnc) s) t ∧ t.enc.busy = true) ∧
    ∃ t, StepsTo (s.enc.idx + 1) (schedule (List.replicate (s.enc.idx + 1) turnEnc) s) t ∧ t.enc.busy = false := by
  constructor
  · intro n hn
    obtain ⟨t, hrun, htb, -⟩ := encTurns_descend n (schedule _ s) s.host.sched hb hn rfl
    exact ⟨t, hrun, htb⟩
  · obtain ⟨t, hrun, htb, hti, hts⟩ :=
      encTurns_descend s.enc.idx (schedule (List.replicate (s.enc.idx + 1) turnEnc) s) (turnEnc :: s.host.sched) hb
        le_rfl (by simp [List.replicate_succ'])
    obtain ⟨u, hlast, hub⟩ := encTurn_ends htb (hti.trans (Nat.sub_self _)) hts
    exact ⟨u, StepsTo_trans hrun (StepsTo_cons hlast ((StepsTo_zero _ _).mpr rfl)), hub⟩

/-- Settles O21: the frames of ENC for every other step, and the descent through the positions for its own; an accepted
`ENC.START` begins it at position `M - 1`. -/
theorem encRunsToItsTerminalByte : Obligations.EncRunsToItsTerminalByte := by
  refine ⟨fun s t hb hstart hreset hstep => ?_, fun s ts hb hs => ?_, fun s t hb hdigit hterm hreset hstep => ?_,
    fun s hb => encRun_ends_after_idx hb, fun s v hb hv => ?_⟩
  · refine step_keeps_enc hstep fun i ho => exec_keeps_idle_enc hb ?_ ?_
    · rintro v rfl; exact hstart v ho
    · rintro rfl; exact hreset ho
  · rw [eq_withTurn_of_sched hs]
    exact internalStep_busy hb
  · refine step_keeps_enc hstep fun i ho => exec_keeps_busy_enc hb ?_ ?_ ?_
    · rintro rfl; exact hdigit ho
    · rintro rfl; exact hterm ho
    · rintro rfl; exact hreset ho
  · refine ⟨_, exec_encStart_accepted hv hb, ?_⟩
    obtain ⟨hrun, hend⟩ := encRun_ends_after_idx (s := { s with
      enc := { val := v, idx := maxBytes s.cfg.W - 1, started := false, busy := true }, seen := silent s.seen }) rfl
    exact ⟨fun n hn => hrun n (Nat.le_of_lt_succ hn), hend⟩

/-! ### ENC and DEC -/

/-- One choice of ENC's next fields, emitted bytes and output serves for every value of DEC's fields (R101). -/
def BlindToDec (i : Instr) (s : State) : Prop :=
  ∃ (e : Enc) (bytes : List Byte) (out : Option Byte), ∀ d : Dec, exec i { s with dec := d } =
    .next { s with dec := d, enc := e, seen := { silent s.seen with sink := s.seen.sink ++ bytes, eOut := out } }

theorem BlindToDec.of_silent {i : Instr} {s : State} (e : Enc)
    (h : ∀ d : Dec, exec i { s with dec := d } = .next { s with dec := d, enc := e, seen := silent s.seen }) :
    BlindToDec i s :=
  ⟨e, [], none, fun d => by rw [h d, List.append_nil]; rfl⟩

theorem BlindToDec.of_emitted {i : Instr} {s : State} (e : Enc) (b : Byte)
    (h : ∀ d : Dec, exec i { s with dec := d } = .next { s with dec := d, enc := e, seen := emitted b s.seen }) :
    BlindToDec i s :=
  ⟨e, [b], some b, h⟩

theorem encStart_blindToDec {s : State} {v : Nat} (hv : v < 2 ^ s.cfg.W) : BlindToDec (.encStart v) s := by
  cases hb : s.enc.busy with
  | false => exact .of_silent ⟨v, maxBytes s.cfg.W - 1, false, true⟩ fun d =>
      exec_encStart_accepted (s := { s with dec := d }) hv hb
  | true => exact .of_silent s.enc fun d => exec_encStart_held (s := { s with dec := d }) hv hb

theorem encDigit_blindToDec (s : State) : BlindToDec .encDigit s := by
  by_cases hon : s.enc.busy = true ∧ s.enc.idx ≠ 0
  · obtain ⟨hb, hi⟩ := hon
    by_cases hd : topDigit s.enc.val s.enc.idx ≠ 0 ∨ s.enc.started = true
    · exact .of_emitted ⟨s.enc.val % weight s.enc.idx, s.enc.idx - 1, true, true⟩
        (contByte (topDigit s.enc.val s.enc.idx)) fun d => exec_encDigit_emits (s := { s with dec := d }) hb hi hd
    · obtain ⟨hzero, hfirst⟩ := not_or.mp hd
      exact .of_silent { s.enc with idx := s.enc.idx - 1 } fun d =>
        exec_encDigit_skips (s := { s with dec := d }) hb hi (not_not.mp hzero) (eq_false_of_ne_true hfirst)
  · exact .of_silent s.enc fun d => exec_encDigit_disabled (s := { s with dec := d }) hon

theorem encTerm_blindToDec (s : State) : BlindToDec .encTerm s := by
  by_cases hon : s.enc.busy = true ∧ s.enc.idx = 0
  · obtain ⟨hb, hi⟩ := hon
    exact .of_emitted { s.enc with busy := false } (termByte s.enc.val) fun d =>
      exec_encTerm_emits (s := { s with dec := d }) hb hi
  · exact .of_silent s.enc fun d => exec_encTerm_disabled (s := { s with dec := d }) hon

/-- Settles O22: each of the three steps branches on ENC's own fields and the operand only. -/
theorem encoderNeverFailsNorTouchesDec : Obligations.EncoderNeverFailsNorTouchesDec := by
  intro i s hi hwf
  cases i with
  | encStart v => exact encStart_blindToDec (of_decide_eq_true hwf)
  | encDigit => exact encDigit_blindToDec s
  | encTerm => exact encTerm_blindToDec s
  | _ => cases hi

/-! ### The three steps as the rules give them -/

/-- Settles O18, by the whole next state of an accepted and of a held `ENC.START`. -/
theorem encStartLoadsOrHolds : Obligations.EncStartLoadsOrHolds := by
  intro s v hv
  have hv : v < 2 ^ s.cfg.W := Nat.lt_of_le_of_lt hv (maxValue_lt _)
  exact ⟨rfl, fun hb => ⟨exec_encStart_accepted hv hb, one_le_maxBytes_sub_one (Config.seven_le_W _)⟩,
    exec_encStart_held hv⟩

/-- A remainder within its position has a digit of seven bits there (R96). -/
theorem topDigit_lt {rem i : Nat} (h : rem < weight (i + 1)) : topDigit rem i < 128 :=
  Nat.div_lt_of_lt_mul (weight_succ i ▸ h)

/-- Where 7 divides the width, the top position lies above every bit of the Value (R93). -/
theorem topDigit_top_eq_zero {w v : Nat} (hw : 7 ∣ w) (hv : v < 2 ^ w) : topDigit v (w / 7) = 0 :=
  Nat.div_eq_of_lt (by rwa [weight, Nat.mul_div_cancel' hw])

/-- Settles O19: R25 bounds the digit, which makes the byte `128 + d`. -/
theorem encDigitEmitsOrSkips : Obligations.EncDigitEmitsOrSkips := by
  intro s hinv hb hidx
  obtain ⟨-, hval⟩ := hinv hb
  have hi : s.enc.idx ≠ 0 := Nat.ne_of_gt hidx
  have hdigit : topDigit s.enc.val s.enc.idx < 128 := topDigit_lt hval
  refine ⟨?_, Nat.le_of_lt_succ hdigit, fun hd => ⟨_, contByte_toNat hdigit, exec_encDigit_emits hb hi hd⟩,
    exec_encDigit_skips hb hi, fun hw htop hfits => ?_⟩
  · rw [internalStep_busy hb, if_neg hi]
  · rw [htop]
    exact topDigit_top_eq_zero hw hfits

/-- Settles O20: R25 at position 0 leaves a remainder below 128, which is the byte. -/
theorem encTermEmitsTheRemainder : Obligations.EncTermEmitsTheRemainder := by
  intro s hinv hb hi
  obtain ⟨-, hval⟩ := hinv hb
  have hsmall : s.enc.val < 128 := by simpa [hi] using hval
  refine ⟨?_, termByte s.enc.val, ?_, termByte_continues _, exec_encTerm_emits hb hi⟩
  · rw [internalStep_busy hb, if_pos hi]
  · rw [termByte_toNat, Nat.mod_eq_of_lt hsmall]

end Sys2Proof.Machine
end

section
/-! PROOFS. The decoder family (42_decoder.md): what each token does in each phase (R112, R113, R114), and which
sequences decode to a Value: padded ones (R121), of any length (R122), at any width that holds it (R123). -/

namespace Sys2Proof.Machine

open Sys2Proof

/-! ### The token patterns -/

/-- A token that matches under a mask has the match's bit wherever the mask has a 1. -/
theorem getLsbD_of_mask {tok mask pattern : Token} (h : tok &&& mask = pattern) {k : Nat}
    (hk : mask.getLsbD k = true) : tok.getLsbD k = pattern.getLsbD k := by
  rw [← h, BitVec.getLsbD_and, hk, Bool.and_true]

/-! ### The whole next state of a token, phase by phase -/

/-- Within a sequence a continuation byte at most `LIM` appends its digit (R112). -/
theorem exec_decCont_appends {s : State} {p : Digit} (hst : s.dec.st = .idle ∨ s.dec.st = .cont)
    (hle : s.dec.acc + p.toNat ≤ lim s.cfg.W) :
    exec (.decCont p) s = .next { s with
      dec := { acc := (s.dec.acc + p.toNat) * 128, st := .cont, res := s.dec.res }, seen := silent s.seen } := by
  rcases consumeCont_cases p (quiet s) with ⟨_, _, h⟩ | ⟨_, hover, _⟩ | ⟨hterm, _⟩ | ⟨hdrain, _⟩
  · exact congrArg _ h
  · exact absurd hle (Nat.not_le.mpr hover)
  · simp [show s.dec.st = .term from hterm] at hst
  · simp [show s.dec.st = .drain from hdrain] at hst

/-- Within a sequence a continuation byte above `LIM` is an overflow (R112, R144). -/
theorem exec_decCont_overflows {s : State} {p : Digit} (hst : s.dec.st = .idle ∨ s.dec.st = .cont)
    (hlt : lim s.cfg.W < s.dec.acc + p.toNat) :
    exec (.decCont p) s = .next { s with
      dec := { acc := 0, st := .drain, res := ⟨.overflow, 0⟩ }, seen := reported (.err .overflow) s.seen } := by
  rcases consumeCont_cases p (quiet s) with ⟨_, hfits, _⟩ | ⟨_, _, h⟩ | ⟨hterm, _⟩ | ⟨hdrain, _⟩
  · exact absurd hfits (Nat.not_le.mpr hlt)
  · exact congrArg _ h
  · simp [show s.dec.st = .term from hterm] at hst
  · simp [show s.dec.st = .drain from hdrain] at hst

/-- A continuation byte after the terminal byte is extra data (R112). -/
theorem exec_decCont_extra {s : State} (p : Digit) (hst : s.dec.st = .term) :
    exec (.decCont p) s = .next { s with
      dec := { acc := 0, st := .drain, res := ⟨.extraData, 0⟩ }, seen := reported (.err .extraData) s.seen } := by
  have h : consumeCont p (quiet s) = raise .extraData .drain (quiet s) := by
    simpa [hst] using consumeCont_cases p (quiet s)
  exact congrArg _ h

theorem exec_decCont_drained {s : State} (p : Digit) (hst : s.dec.st = .drain) :
    exec (.decCont p) s = .next { s with seen := silent s.seen } := by
  have h : consumeCont p (quiet s) = quiet s := by
    simpa [hst] using consumeCont_cases p (quiet s)
  exact congrArg _ h

/-- Within a sequence a terminal byte closes it with the sum, where the register holds that (R113). -/
theorem exec_decTerm_closes {s : State} {p : Digit} (hst : s.dec.st = .idle ∨ s.dec.st = .cont)
    (hfits : s.dec.acc + p.toNat < 2 ^ s.cfg.W) :
    exec (.decTerm p) s = .next { s with
      dec := { acc := s.dec.acc + p.toNat, st := .term, res := s.dec.res }, seen := silent s.seen } := by
  rcases consumeTerm_cases p (quiet s) with ⟨_, h⟩ | ⟨hterm, _⟩ | ⟨hdrain, _⟩
  · rw [quiet_dec, quiet_cfg, Nat.mod_eq_of_lt hfits] at h
    exact congrArg _ h
  · simp [show s.dec.st = .term from hterm] at hst
  · simp [show s.dec.st = .drain from hdrain] at hst

/-- A terminal byte after the terminal byte is extra data (R113). -/
theorem exec_decTerm_extra {s : State} (p : Digit) (hst : s.dec.st = .term) :
    exec (.decTerm p) s = .next { s with
      dec := { acc := 0, st := .drain, res := ⟨.extraData, 0⟩ }, seen := reported (.err .extraData) s.seen } := by
  have h : consumeTerm p (quiet s) = raise .extraData .drain (quiet s) := by
    simpa [hst] using consumeTerm_cases p (quiet s)
  exact congrArg _ h

theorem exec_decTerm_drained {s : State} (p : Digit) (hst : s.dec.st = .drain) :
    exec (.decTerm p) s = .next { s with seen := silent s.seen } := by
  have h : consumeTerm p (quiet s) = quiet s := by
    simpa [hst] using consumeTerm_cases p (quiet s)
  exact congrArg _ h

/-- `END` before any byte (R114). -/
theorem exec_decEnd_empty {s : State} (hst : s.dec.st = .idle) :
    exec .decEnd s = .next { s with
      dec := { acc := 0, st := .idle, res := ⟨.emptyInput, 0⟩ }, seen := reported (.err .emptyInput) s.seen } := by
  have h : consumeEnd (quiet s) = raise .emptyInput .idle (quiet s) := by
    simpa [hst] using consumeEnd_cases (quiet s)
  exact congrArg _ h

/-- `END` before the terminal byte (R114). -/
theorem exec_decEnd_unfinished {s : State} (hst : s.dec.st = .cont) :
    exec .decEnd s = .next { s with
      dec := { acc := 0, st := .idle, res := ⟨.unfinishedSequence, 0⟩ }
      seen := reported (.err .unfinishedSequence) s.seen } := by
  have h : consumeEnd (quiet s) = raise .unfinishedSequence .idle (quiet s) := by
    simpa [hst] using consumeEnd_cases (quiet s)
  exact congrArg _ h

/-- `END` right after the terminal byte (R114). -/
theorem exec_decEnd_good {s : State} (hst : s.dec.st = .term) :
    exec .decEnd s = .next { s with
      dec := { acc := 0, st := .idle, res := ⟨.ok, s.dec.acc⟩ }, seen := reported (.ok s.dec.acc) s.seen } := by
  have h : consumeEnd (quiet s) = endGood (quiet s) := by
    simpa [hst] using consumeEnd_cases (quiet s)
  exact congrArg _ h

/-- `END` after an error: nothing but the phase is written (R114, R150). -/
theorem exec_decEnd_drained {s : State} (hst : s.dec.st = .drain) :
    exec .decEnd s = .next { s with
      dec := { acc := s.dec.acc, st := .idle, res := s.dec.res }, seen := silent s.seen } := by
  have h : consumeEnd (quiet s) = endDrain (quiet s) := by
    simpa [hst] using consumeEnd_cases (quiet s)
  exact congrArg _ h

/-! ### The accumulator within a sequence -/

/-- Before a terminal byte R29 leaves the accumulator seven free bits at the bottom, and room for a digit there. -/
theorem DecInv.acc_has_room {w : Nat} {d : Dec} (hw : 7 ≤ w) (h : DecInv w d) (hst : d.st = .idle ∨ d.st = .cont) :
    128 ∣ d.acc ∧ d.acc + 128 ≤ 2 ^ w := by
  have hpow : 128 ≤ 2 ^ w := Nat.pow_le_pow_right (n := 2) (by decide) hw
  rcases hst with hst | hst
  · have hacc : d.acc = 0 := by simpa [DecInv, hst] using h
    simpa [hacc] using hpow
  · have hacc : d.acc % 128 = 0 ∧ d.acc ≤ lim w * 128 := by simpa [DecInv, hst] using h
    rw [lim_mul_128 hw] at hacc
    omega

/-- Over seven free bits the sum with a digit is the bitwise OR (R113). -/
theorem add_digit_eq_or {acc : Nat} (p : Digit) (h : 128 ∣ acc) : acc + p.toNat = acc ||| p.toNat := by
  obtain ⟨a, rfl⟩ := h
  exact Nat.two_pow_add_eq_or_of_lt p.isLt a

/-- Settles O27: one lemma per phase, and `LIM * 128 = 2^W - 128` bounds the shifted sum. -/
theorem decContByPhase : Obligations.DecContByPhase := by
  refine ⟨fun tok hmask => ?_, fun s p => ?_⟩
  · obtain ⟨-, hcont, -⟩ := tokenFormatAlwaysReady.1 tok
    exact hcont (getLsbD_of_mask hmask rfl) (getLsbD_of_mask hmask rfl)
  · rw [← lim_eq (Config.seven_le_W s.cfg), ← lim_mul_128 (Config.seven_le_W s.cfg)]
    exact ⟨fun hst =>
      ⟨fun hle => ⟨exec_decCont_appends hst hle, Nat.mul_le_mul_right 128 hle⟩, exec_decCont_overflows hst⟩,
      exec_decCont_extra p, exec_decCont_drained p⟩

/-- Settles O28: one lemma per phase; R29 makes the sum fit and free of carries. -/
theorem decTermByPhase : Obligations.DecTermByPhase := by
  refine ⟨fun tok hmask => ?_, fun s p hinv => ⟨fun hst => ?_, exec_decTerm_extra p, exec_decTerm_drained p⟩⟩
  · obtain ⟨-, -, hterm⟩ := tokenFormatAlwaysReady.1 tok
    exact hterm (getLsbD_of_mask hmask rfl) (getLsbD_of_mask hmask rfl)
  · obtain ⟨hdvd, hroom⟩ := hinv.acc_has_room (Config.seven_le_W s.cfg) hst
    have hfits : s.dec.acc + p.toNat < 2 ^ s.cfg.W :=
      Nat.lt_of_lt_of_le (Nat.add_lt_add_left p.isLt _) hroom
    exact ⟨exec_decTerm_closes hst hfits, add_digit_eq_or p hdvd, Nat.le_sub_one_of_lt hfits⟩

/-- Settles O29: one lemma per phase; in DRAIN the accumulator is 0 already by R29. -/
theorem decEndByPhase : Obligations.DecEndByPhase := by
  refine ⟨fun tok hmask => ?_, fun s hinv =>
    ⟨exec_decEnd_empty, exec_decEnd_unfinished, exec_decEnd_good, fun hst => ?_⟩⟩
  · obtain ⟨hend, -, -⟩ := tokenFormatAlwaysReady.1 tok
    exact hend (getLsbD_of_mask hmask rfl)
  · have hacc : s.dec.acc = 0 := by simpa [DecInv, hst] using hinv
    rw [exec_decEnd_drained hst, hacc]

/-! ### Which sequences decode to a Value -/

/-- On well-formed input only the magnitude decides: the Decoder gives the value, or Overflow where it does not fit
(R120). -/
theorem opDecode_of_wellFormedSeq {w : Nat} (hw : 7 ≤ w) {s : List Byte} (h : WellFormedSeq s) :
    opDecode s w = if seqValue s < 2 ^ w then .ok (seqValue s) else .err .overflow := by
  obtain ⟨init, last, rfl, hinit, hlast⟩ := h
  have hvalue : seqValue (init ++ [last]) = seqValue init * 128 + (bytePayload last).toNat := by
    simp [seqValue_append]
  have hover : lim w < seqValue init ↔ ¬ seqValue (init ++ [last]) < 2 ^ w := by
    have hpayload := bytePayload_lt last
    have hpow := two_pow_eq_mul_128 hw
    rw [lim_lt_iff hw, hvalue]
    omega
  rw [opDecode_prefix_term w [] hinit hlast, if_pos rfl]
  simp only [hover, ite_not]

/-- An accepted sequence is well formed: the other shapes all raise an error (R62, R111). -/
theorem wellFormedSeq_of_opDecode_ok {w v : Nat} {s : List Byte} (h : opDecode s w = .ok v) : WellFormedSeq s := by
  rw [wellFormedSeq_iff]
  rintro (rfl | ⟨hne, hall⟩ | ⟨pre, t, b, rest, rfl, hpre, ht⟩)
  · cases h
  · rw [opDecode_prefix_only w hne hall] at h
    split at h <;> cases h
  · rw [opDecode_prefix_term w (b :: rest) hpre ht, if_neg (List.cons_ne_nil b rest)] at h
    split at h <;> cases h

/-- The accepted sequences are the well-formed ones whose value fits the width. -/
theorem opDecode_eq_ok_iff {w v : Nat} (hw : 7 ≤ w) (s : List Byte) :
    opDecode s w = .ok v ↔ WellFormedSeq s ∧ seqValue s = v ∧ v < 2 ^ w := by
  constructor
  · intro h
    have hwf := wellFormedSeq_of_opDecode_ok h
    rw [opDecode_of_wellFormedSeq hw hwf] at h
    split at h
    · next hfits => cases h; exact ⟨hwf, rfl, hfits⟩
    · cases h
  · rintro ⟨hwf, rfl, hfits⟩
    rw [opDecode_of_wellFormedSeq hw hwf, if_pos hfits]

/-! ### Padding -/

/-- A leading `0x80` leaves the accumulator at 0 and cannot overflow (R121). -/
theorem decodeFrom_padding (w z : Nat) (s : List Byte) :
    decodeFrom w 0 (List.replicate z 0x80#8 ++ s) = decodeFrom w 0 s := by
  induction z with
  | zero => rfl
  | succ z ih =>
    have hpayload : (bytePayload 0x80#8).toNat = 0 := rfl
    rw [List.replicate_succ, List.cons_append, decodeFrom_cont _ rfl, hpayload, if_neg (Nat.not_lt_zero _), ih]

theorem opDecode_padding (w z : Nat) {s : List Byte} (hs : s ≠ []) :
    opDecode (List.replicate z 0x80#8 ++ s) w = opDecode s w := by
  rw [opDecode_of_ne_nil w (List.append_ne_nil_of_right_ne_nil _ hs), opDecode_of_ne_nil w hs, decodeFrom_padding]

/-! ### The Encoder's output as the Decoder's input -/

theorem wellFormedSeq_opEncode {w v : Nat} (h : v < 2 ^ w) : WellFormedSeq (opEncode v w) := by
  obtain ⟨k, -, hv, -, heq⟩ := opEncode_eq_started h
  obtain ⟨-, -, hwf⟩ := encodeFrom_started k v hv
  rwa [heq]

theorem seqValue_opEncode {w v : Nat} (h : v < 2 ^ w) : seqValue (opEncode v w) = v := by
  obtain ⟨k, -, hv, -, heq⟩ := opEncode_eq_started h
  obtain ⟨-, hvalue, -⟩ := encodeFrom_started k v hv
  rwa [heq]

/-- The round trip (R125). -/
theorem opDecode_opEncode {w v : Nat} (hw : 7 ≤ w) (h : v < 2 ^ w) : opDecode (opEncode v w) w = .ok v :=
  (opDecode_eq_ok_iff hw _).mpr ⟨wellFormedSeq_opEncode h, seqValue_opEncode h, h⟩

/-- The first digit is non-zero exactly when the value reaches its weight. -/
theorem pow_length_le_seqValue_cons_iff (b : Byte) (s : List Byte) :
    128 ^ s.length ≤ seqValue (b :: s) ↔ bytePayload b ≠ 0#7 := by
  have hrest := seqValue_lt s
  rw [seqValue_cons, ne_eq, BitVec.toNat_eq]
  constructor
  · intro hle hzero
    have hreach : 128 ^ s.length ≤ seqValue s := by simpa [hzero] using hle
    exact hreach.not_gt hrest
  · intro hne
    exact Nat.le_add_right_of_le (Nat.le_mul_of_pos_left _ (Nat.pos_of_ne_zero hne))

/-- The Encoder starts at the top non-zero digit, so a longer output does not begin with `0x80` (R63, R91). -/
theorem canonicalSeq_opEncode {w v : Nat} (h : v < 2 ^ w) : CanonicalSeq (opEncode v w) := by
  refine ⟨wellFormedSeq_opEncode h, ?_⟩
  obtain ⟨k, -, hv, htop, heq⟩ := opEncode_eq_started h
  obtain ⟨hlen, hvalue, -⟩ := encodeFrom_started k v hv
  rw [heq]
  rcases htop with rfl | htop
  · exact .inl hlen
  · right
    intro hhead
    obtain ⟨rest, hrest⟩ := List.head?_eq_some_iff.mp hhead
    rw [hrest] at hlen hvalue
    have hle : 128 ^ rest.length ≤ seqValue (0x80#8 :: rest) := by
      rwa [hvalue, Nat.succ.inj hlen, ← weight_eq]
    exact (pow_length_le_seqValue_cons_iff _ _).mp hle rfl

/-- Settles O33: padding changes nothing, and among well-formed sequences the value alone decides. -/
theorem nonCanonicalInputIsAccepted : Obligations.NonCanonicalInputIsAccepted := by
  intro w v z hw hv
  have hfits : v < 2 ^ w := Nat.lt_of_le_of_lt hv (maxValue_lt w)
  have hround := opDecode_opEncode hw hfits
  refine ⟨?_, fun s hwf hs => ?_, canonicalSeq_opEncode hfits, seqValue_opEncode hfits⟩
  · rw [opDecode_padding w z (wellFormedSeq_ne_nil (wellFormedSeq_opEncode hfits)), hround]
  · rw [hround]
    exact (opDecode_eq_ok_iff hw s).mpr ⟨hwf, hs, hfits⟩

/-! ### No length limit -/

/-- A sequence from its first non-zero payload on. -/
def significant (s : List Byte) : List Byte := s.dropWhile fun b => bytePayload b == 0#7

theorem significant_cons_zero {b : Byte} (s : List Byte) (hb : bytePayload b = 0#7) :
    significant (b :: s) = significant s :=
  List.dropWhile_cons_of_pos (beq_iff_eq.mpr hb)

theorem significant_cons_nonzero {b : Byte} (s : List Byte) (hb : bytePayload b ≠ 0#7) :
    significant (b :: s) = b :: s :=
  List.dropWhile_cons_of_neg (mt beq_iff_eq.mp hb)

/-- A value below `128^n` has at most `n` significant digits. -/
theorem length_significant_le {n : Nat} (s : List Byte) (h : seqValue s < 128 ^ n) : (significant s).length ≤ n := by
  induction s with
  | nil => exact Nat.zero_le n
  | cons b s ih =>
    by_cases hb : bytePayload b = 0#7
    · rw [significant_cons_zero s hb]
      exact ih (by simpa [hb] using h)
    · rw [significant_cons_nonzero s hb]
      have htop := (pow_length_le_seqValue_cons_iff b s).mpr hb
      exact (Nat.pow_lt_pow_iff_right (by decide)).mp (htop.trans_lt h)

/-- Settles O34: padding changes nothing, and an accepted value fits `W` bits, which leaves it at most `M` digits. -/
theorem decoderHasNoLengthLimit : Obligations.DecoderHasNoLengthLimit := by
  refine fun w hw => ⟨fun z => ?_, fun z s => opDecode_padding w z, fun s v hok => ?_⟩
  · rw [opDecode_padding w z (List.cons_ne_nil _ _)]
    rfl
  · obtain ⟨-, rfl, hfits⟩ := (opDecode_eq_ok_iff hw s).mp hok
    have hdigits := lt_weight_of_lt_two_pow hfits
    rw [weight_eq] at hdigits
    exact length_significant_le s hdigits

/-! ### The width -/

/-- The loop reads the width in the overflow test only (R123). -/
theorem decodeFrom_eq_of_not_overflow {w w' : Nat} (s : List Byte) : ∀ acc,
    decodeFrom w acc s ≠ .err .overflow → decodeFrom w' acc s ≠ .err .overflow →
      decodeFrom w acc s = decodeFrom w' acc s := by
  induction s with
  | nil => exact fun _ _ _ => rfl
  | cons b s ih =>
    intro acc
    cases hb : byteContinues b with
    | false => rw [decodeFrom_term s hb, decodeFrom_term s hb]; exact fun _ _ => rfl
    | true =>
      rw [decodeFrom_cont s hb, decodeFrom_cont s hb]
      split
      · exact fun h => absurd rfl h
      · split
        · exact fun _ h => absurd rfl h
        · exact ih _

/-- Settles O35, by the loop of a non-empty sequence; the source's example is run at its four widths. -/
theorem outcomeDependsOnWidthOnlyByOverflow : Obligations.OutcomeDependsOnWidthOnlyByOverflow := by
  refine ⟨fun w w' s _ _ => ?_, by decide, by decide, by decide, by decide⟩
  cases s with
  | nil => exact fun _ _ => rfl
  | cons b s => exact decodeFrom_eq_of_not_overflow (b :: s) 0

end Sys2Proof.Machine
end


section
/-! PROOFS. The exceptions family (60_exceptions.md): which operation in which phase reports which outcome (R140), and
the one error entry (R149). -/

namespace Sys2Proof.Machine

open Sys2Proof

/-! ### When an operation reports, and what state a report leaves -/

/-- The operation is a byte for the Decoder: a `BYTE` token or a wire byte, of either class. -/
def IsByte (i : Instr) : Prop := ∃ p, i = .decCont p ∨ i = .decTerm p ∨ i = .cont p ∨ i = .term p

theorem IsByte.of_cont {i : Instr} {p : Digit} (hi : i = .decCont p ∨ i = .cont p) : IsByte i :=
  ⟨p, by rcases hi with rfl | rfl <;> simp⟩

theorem IsByte.of_term {i : Instr} {p : Digit} (hi : i = .decTerm p ∨ i = .term p) : IsByte i :=
  ⟨p, by rcases hi with rfl | rfl <;> simp⟩

theorem IsByte.ne_decEnd {i : Instr} (hi : IsByte i) : i ≠ .decEnd := by
  obtain ⟨p, rfl | rfl | rfl | rfl⟩ := hi <;> simp

/-- The condition under which the operation `i` reports an outcome in the state `s` (R112, R113, R114, R140). -/
def ReportCondition (i : Instr) (s : State) : DecOutcome → Prop
  | .err .emptyInput => i = .decEnd ∧ s.dec.st = .idle
  | .err .unfinishedSequence => i = .decEnd ∧ s.dec.st = .cont
  | .err .extraData => IsByte i ∧ s.dec.st = .term
  | .err .overflow =>
    (∃ p : Digit, (i = .decCont p ∨ i = .cont p) ∧ lim s.cfg.W < s.dec.acc + p.toNat) ∧
      (s.dec.st = .idle ∨ s.dec.st = .cont)
  | .ok v => i = .decEnd ∧ s.dec.st = .term ∧ v = s.dec.acc

/-- The state after the operation `i` reported `o` (R52, R149, and R114 for `Ok`): the outcome recorded, the accumulator
cleared, and IDLE after `END`, DRAIN after a byte. -/
def afterReport (i : Instr) (o : DecOutcome) (s : State) : State :=
  decRecorded ⟨0, if i = .decEnd then .idle else .drain, resOf o⟩ [o] true s

/-- `t` records no outcome beyond those of `s`, or it is the state a report by `i` leaves. -/
def SilentOrReports (i : Instr) (s t : State) : Prop :=
  t.seen.reports = s.seen.reports ∨ ∃ o, ReportCondition i s o ∧ t = afterReport i o s

theorem SilentOrReports.raise_of_byte {i : Instr} {k : ErrorKind} {s : State} (hi : IsByte i)
    (hcond : ReportCondition i s (.err k)) : SilentOrReports i s (raise k .drain (quiet s)) := by
  refine .inr ⟨.err k, hcond, ?_⟩
  rw [afterReport, if_neg hi.ne_decEnd]
  exact raise_quiet k .drain s

theorem consumeCont_silentOrReports {i : Instr} {p : Digit} (hi : i = .decCont p ∨ i = .cont p) (s : State) :
    SilentOrReports i s (consumeCont p (quiet s)) := by
  have hbyte : IsByte i := .of_cont hi
  rcases consumeCont_cases p (quiet s) with ⟨_, _, h⟩ | ⟨hst, hover, h⟩ | ⟨hst, h⟩ | ⟨_, h⟩ <;> rw [h]
  · exact .inl rfl
  · exact .raise_of_byte hbyte ⟨⟨p, hi, hover⟩, hst⟩
  · exact .raise_of_byte hbyte ⟨hbyte, hst⟩
  · exact .inl rfl

theorem consumeTerm_silentOrReports {i : Instr} {p : Digit} (hi : i = .decTerm p ∨ i = .term p) (s : State) :
    SilentOrReports i s (consumeTerm p (quiet s)) := by
  have hbyte : IsByte i := .of_term hi
  rcases consumeTerm_cases p (quiet s) with ⟨_, h⟩ | ⟨hst, h⟩ | ⟨_, h⟩ <;> rw [h]
  · exact .inl rfl
  · exact .raise_of_byte hbyte ⟨hbyte, hst⟩
  · exact .inl rfl

theorem consumeEnd_silentOrReports (s : State) : SilentOrReports .decEnd s (consumeEnd (quiet s)) := by
  rcases consumeEnd_cases (quiet s) with ⟨hst, h⟩ | ⟨hst, h⟩ | ⟨hst, h⟩ | ⟨_, h⟩ <;> rw [h]
  · exact .inr ⟨.err .emptyInput, ⟨rfl, hst⟩, rfl⟩
  · exact .inr ⟨.err .unfinishedSequence, ⟨rfl, hst⟩, rfl⟩
  · exact .inr ⟨.ok s.dec.acc, ⟨rfl, hst, rfl⟩, rfl⟩
  · exact .inl rfl

/-- Only DEC's operations report (R140). -/
theorem exec_keeps_reports {i : Instr} {s t : State} (hi : isDecInstr i = false) (h : exec i s = .next t) :
    t.seen.reports = s.seen.reports := by
  have enc (hblind : BlindToDec i s) : t.seen.reports = s.seen.reports := by
    obtain ⟨e, bytes, out, hexec⟩ := hblind
    cases (hexec s.dec).symm.trans h
    rfl
  cases i with
  | maxBytes w =>
    simp only [exec, execMaxBytes] at h; split at h
    · cases h
    · cases h; rfl
  | encode v w =>
    simp only [exec, execEncode] at h; split at h
    · cases h
    · split at h
      · cases h
      · cases h; rfl
  | decode bytes w =>
    simp only [exec, execDecode] at h; split at h
    · cases h
    · cases h; rfl
  | encStart v =>
    rcases execEncStart_cases v s with ⟨_, hrefused⟩ | ⟨hv, _⟩ | ⟨hv, _⟩
    · cases hrefused.symm.trans h
    · exact enc (encStart_blindToDec hv)
    · exact enc (encStart_blindToDec hv)
  | encDigit => exact enc (encDigit_blindToDec s)
  | encTerm => exact enc (encTerm_blindToDec s)
  | reset => cases h; rfl
  | decCont p | decTerm p | decEnd | cont p | term p => cases hi

theorem exec_silentOrReports {i : Instr} {s t : State} (h : exec i s = .next t) : SilentOrReports i s t := by
  cases i with
  | decCont p => cases h; exact consumeCont_silentOrReports (.inl rfl) s
  | cont p => cases h; exact consumeCont_silentOrReports (.inr rfl) s
  | decTerm p => cases h; exact consumeTerm_silentOrReports (.inl rfl) s
  | term p => cases h; exact consumeTerm_silentOrReports (.inr rfl) s
  | decEnd => cases h; exact consumeEnd_silentOrReports s
  | _ => exact .inl (exec_keeps_reports rfl h)

/-- Inversion of a report: the operation met the condition of that outcome, and the next state is the one the report
leaves. -/
theorem exec_of_report {i : Instr} {s t : State} {o : DecOutcome} (h : exec i s = .next t)
    (hr : t.seen.reports = s.seen.reports ++ [o]) : ReportCondition i s o ∧ t = afterReport i o s := by
  rcases exec_silentOrReports h with hsilent | ⟨o', hcond, rfl⟩
  · simp [hr] at hsilent
  · have ho : o' = o := List.singleton_injective (List.append_cancel_left hr)
    exact ho ▸ ⟨hcond, rfl⟩

/-! ### The status port -/

/-- After a report the ports show its code and value (R28, R140). -/
theorem exec_of_report_ports {i : Instr} {s t : State} {o : DecOutcome} (h : exec i s = .next t)
    (hr : t.seen.reports = s.seen.reports ++ [o]) : ReportCondition i s o ∧
      (outPorts t).dStatus = statusCode (resOf o).status ∧ (outPorts t).dValue = (resOf o).value := by
  obtain ⟨hcond, rfl⟩ := exec_of_report h hr
  exact ⟨hcond, rfl, rfl⟩

/-- The codes 6 and 7 are never written (R28). -/
theorem statusCode_le_five (st : Status) : (statusCode st).toNat ≤ 5 := by
  cases st <;> decide

/-- A reported outcome is never shown as `NONE` (R140). -/
theorem statusCode_resOf_ne_none (o : DecOutcome) : statusCode (resOf o).status ≠ 0#3 := by
  cases o with
  | ok v => exact (by decide : statusCode .ok ≠ 0#3)
  | err k => cases k <;> decide

/-- A step that brings `NONE` back on `d_status` is a RESET, and it clears the value (R140, R160). -/
theorem exec_writes_none {i : Instr} {s t : State} (h : exec i s = .next t) (ht : (outPorts t).dStatus = 0#3)
    (hs : (outPorts s).dStatus ≠ 0#3) : i = .reset ∧ (outPorts t).dValue = 0 := by
  have hreset : i = .reset := by
    by_contra hi
    obtain ⟨-, ⟨-, -, hres⟩ | ⟨o, -, -, hres⟩⟩ := exec_events h
    · have hsame : (outPorts t).dStatus = (outPorts s).dStatus := by simp [outPorts, hres hi]
      exact hs (hsame.symm.trans ht)
    · have hcode : (outPorts t).dStatus = statusCode (resOf o).status := by simp [outPorts, hres]
      exact statusCode_resOf_ne_none o (hcode.symm.trans ht)
  subst hreset
  cases h
  exact ⟨rfl, rfl⟩

/-! ### The obligations -/

/-- Settles O41: `exec_of_report_ports` gives each outcome its condition, code and value; `NONE` and the unused codes
are facts of the status port. -/
theorem outcomesByStepAndPhase : Obligations.OutcomesByStepAndPhase := by
  intro i s t h
  refine ⟨fun hr => and_assoc.mp (exec_of_report_ports h hr), fun hr => and_assoc.mp (exec_of_report_ports h hr),
    fun hr => and_assoc.mp (exec_of_report_ports h hr), fun hr => and_assoc.mp (exec_of_report_ports h hr),
    fun v hr => ?_, exec_writes_none h, statusCode_le_five _⟩
  obtain ⟨⟨hi, hst, hv⟩, hports⟩ := exec_of_report_ports h hr
  exact ⟨hi, hst, hv, hports⟩

/-- Among the errors `END` raises exactly EmptyInput and UnfinishedSequence (R149). -/
theorem ReportCondition.isEnd_iff {i : Instr} {s : State} {k : ErrorKind} (h : ReportCondition i s (.err k)) :
    i = .decEnd ↔ k = .emptyInput ∨ k = .unfinishedSequence := by
  cases k with
  | emptyInput | unfinishedSequence =>
    obtain ⟨hend, _⟩ := h
    simp [hend]
  | extraData =>
    obtain ⟨hbyte, _⟩ := h
    simp [hbyte.ne_decEnd]
  | overflow =>
    obtain ⟨⟨_, hcont, _⟩, _⟩ := h
    simp [(IsByte.of_cont hcont).ne_decEnd]

/-- Settles O42: the next state is `afterReport`, and the kind tells `END` from a byte. -/
theorem errorEntryDoesExactlyThis : Obligations.ErrorEntryDoesExactlyThis := by
  intro i s t k h hr
  obtain ⟨hcond, rfl⟩ := exec_of_report h hr
  exact ⟨rfl, hcond.isEnd_iff⟩

end Sys2Proof.Machine
end

section
/-! PROOFS. The family of resets and hazards (70_reset_and_hazards.md): what RESET does (R160) and abandons (R161), the
hold of `ENC.START` (R164), and the lifetime of `D.res` (R167). -/

namespace Sys2Proof.Machine

open Sys2Proof

/-! ### RESET -/

/-- The state a RESET leaves (R160). -/
def afterReset (s : State) : State :=
  unspecifyEnc (setDec ⟨0, .idle, ⟨.none, 0⟩⟩ (setEnc { s.enc with busy := false } (quiet s)))

theorem exec_reset (s : State) : exec .reset s = .next (afterReset s) := rfl

@[simp] theorem afterReset_cfg (s : State) : (afterReset s).cfg = s.cfg := rfl
@[simp] theorem afterReset_enc_busy (s : State) : (afterReset s).enc.busy = false := rfl
@[simp] theorem afterReset_dec (s : State) : (afterReset s).dec = ⟨0, .idle, ⟨.none, 0⟩⟩ := rfl
@[simp] theorem afterReset_seen (s : State) : (afterReset s).seen = silent s.seen := rfl

/-- `rst = 1` pre-empts whatever is offered beside it (R160). -/
theorem offered_of_rst {s : State} (h : (currentTurn s).rst = 1#1) : offered s = some .reset := by
  have hp : presented s = some (.rst 1#1) := if_pos h
  simp [offered, hp, readPort, decodeWord]

/-- A RESET turn leaves the turns after it to be taken from the reset state. -/
theorem step_reset_schedule (ts : List Turn) (s : State) :
    step (schedule (turnReset :: ts) s) = .next (schedule ts (afterReset s)) :=
  step_reset .idle (schedule ts s)

/-- Settles O51: the pin decides the offer, and the values are those of `afterReset`. -/
theorem resetDoesWhatTheRuleSays : Obligations.ResetDoesWhatTheRuleSays :=
  ⟨rfl, fun _ h => ⟨offered_of_rst h, step_some (offered_of_rst h)⟩,
    fun s => ⟨afterReset s, exec_reset s, rfl, rfl, rfl, rfl, rfl, rfl, rfl, rfl, rfl, rfl⟩⟩

/-! ### An idle ENC under its own turns -/

/-- Turns of an idle ENC do no more than take the strobes down (R95). -/
theorem encTurns_idle (n : Nat) : ∀ s : State, s.enc.busy = false →
    ∃ t, StepsTo n (schedule (List.replicate n turnEnc) s) t ∧ (t = s ∨ t = quiet s) := by
  induction n with
  | zero => exact fun s _ => ⟨s, (StepsTo_zero _ _).mpr rfl, .inl rfl⟩
  | succ n ih =>
    intro s hb
    have hstep : step (schedule (List.replicate (n + 1) turnEnc) s) =
        .next (schedule (List.replicate n turnEnc) (quiet s)) :=
      step_enc_idle (s := schedule (List.replicate n turnEnc) s) hb
    obtain ⟨t, hrun, ht⟩ := ih (quiet s) hb
    exact ⟨t, StepsTo_cons hstep hrun, .inr (ht.elim id id)⟩

/-! ### The Decoder over one whole sequence -/

/-- A DEC operation passes over the schedule (R42). -/
theorem exec_dec_schedule {i : Instr} {s t : State} (hi : isDecInstr i = true) (h : exec i s = .next t)
    (ts : List Turn) : exec i (schedule ts s) = .next (schedule ts t) := by
  obtain ⟨d, reps, done, hlocal⟩ := exec_dec_local s hi
  cases (hlocal s rfl rfl).symm.trans h
  exact hlocal (schedule ts s) rfl rfl

theorem step_token_schedule {tok : Token} {s t : State} (h : exec (decodeToken tok) s = .next t) (ts : List Turn) :
    step (schedule (turnOf (.token tok) :: ts) s) = .next (schedule ts t) :=
  (step_token tok (schedule ts s)).trans (exec_dec_schedule (isDecInstr_decodeToken tok) h ts)

theorem decodeToken_cases (t : Token) :
    decodeToken t = .decEnd ∨ (∃ p, decodeToken t = .decCont p) ∨ ∃ p, decodeToken t = .decTerm p := by
  unfold decodeToken
  split
  · exact .inl rfl
  · split
    · exact .inr (.inl ⟨_, rfl⟩)
    · exact .inr (.inr ⟨_, rfl⟩)

theorem exec_token_keeps_enc {tok : Token} {s t : State} (h : exec (decodeToken tok) s = .next t) :
    t.enc = s.enc ∧ t.seen.sink = s.seen.sink := by
  rcases decodeToken_cases tok with htok | ⟨p, htok⟩ | ⟨p, htok⟩ <;> rw [htok] at h <;>
    exact exec_keeps_enc rfl (by simp) h

/-- The bytes and one `END`, consumed from `s`, report the outcomes `outs` and bring DEC to IDLE; ENC and the sink stay
as they were. -/
def SeqReports (bytes : List Byte) (outs : List DecOutcome) (s : State) : Prop :=
  ∃ t, StepsTo (bytes.length + 1) (schedule (decSeq bytes) s) t ∧ t.enc = s.enc ∧ t.seen.sink = s.seen.sink ∧
    t.seen.reports = s.seen.reports ++ outs ∧ t.dec.st = .idle

theorem SeqReports.of_end {s t : State} {outs : List DecOutcome} (h : exec .decEnd s = .next t)
    (hr : t.seen.reports = s.seen.reports ++ outs) (hst : t.dec.st = .idle) : SeqReports [] outs s := by
  have htok : exec (decodeToken endToken) s = .next t := by rw [decodeToken_endToken, h]
  obtain ⟨henc, hsink⟩ := exec_token_keeps_enc htok
  exact ⟨t, StepsTo_cons (step_token_schedule htok []) ((StepsTo_zero _ _).mpr rfl), henc, hsink, hr, hst⟩

theorem SeqReports.of_byte {b : Byte} {bytes : List Byte} {s t : State} {reps outs : List DecOutcome}
    (h : exec (decodeToken (byteToken b)) s = .next t) (hr : t.seen.reports = s.seen.reports ++ reps)
    (hrest : SeqReports bytes outs t) : SeqReports (b :: bytes) (reps ++ outs) s := by
  obtain ⟨henc, hsink⟩ := exec_token_keeps_enc h
  obtain ⟨u, hrun, huenc, husink, hureps, hust⟩ := hrest
  exact ⟨u, StepsTo_cons (step_token_schedule h (decSeq bytes)) hrun, huenc.trans henc, husink.trans hsink,
    by rw [hureps, hr, List.append_assoc], hust⟩

theorem decodeToken_of_continues {b : Byte} (h : byteContinues b = true) :
    decodeToken (byteToken b) = .decCont (bytePayload b) := by
  rw [decodeToken_byteToken, if_pos h]

theorem decodeToken_of_not_continues {b : Byte} (h : byteContinues b = false) :
    decodeToken (byteToken b) = .decTerm (bytePayload b) := by
  rw [decodeToken_byteToken, h, if_neg Bool.false_ne_true]

theorem exec_byte_drained {s : State} (b : Byte) (hst : s.dec.st = .drain) :
    exec (decodeToken (byteToken b)) s = .next { s with seen := silent s.seen } := by
  cases hb : byteContinues b with
  | true => rw [decodeToken_of_continues hb, exec_decCont_drained _ hst]
  | false => rw [decodeToken_of_not_continues hb, exec_decTerm_drained _ hst]

theorem exec_byte_extra {s : State} (b : Byte) (hst : s.dec.st = .term) :
    exec (decodeToken (byteToken b)) s = .next { s with
      dec := { acc := 0, st := .drain, res := ⟨.extraData, 0⟩ }, seen := reported (.err .extraData) s.seen } := by
  cases hb : byteContinues b with
  | true => rw [decodeToken_of_continues hb, exec_decCont_extra _ hst]
  | false => rw [decodeToken_of_not_continues hb, exec_decTerm_extra _ hst]

theorem digitRange_le_two_pow_W (c : Config) : 128 ≤ 2 ^ c.W :=
  Nat.pow_le_pow_right (n := 2) (by decide) (Config.seven_le_W c)

/-- After an early error the rest of the sequence is discarded without report (R150). -/
theorem seqReports_drained (bytes : List Byte) : ∀ s : State, s.dec.st = .drain → SeqReports bytes [] s := by
  induction bytes with
  | nil => exact fun s hst => .of_end (exec_decEnd_drained hst) (List.append_nil _).symm rfl
  | cons b bytes ih =>
    exact fun s hst => .of_byte (reps := []) (exec_byte_drained b hst) (List.append_nil _).symm (ih _ hst)

/-- After the terminal byte the sequence is good exactly when nothing follows (R113, R114). -/
theorem seqReports_closed (bytes : List Byte) {s : State} (hst : s.dec.st = .term) :
    SeqReports bytes [if bytes = [] then .ok s.dec.acc else .err .extraData] s := by
  cases bytes with
  | nil => exact .of_end (exec_decEnd_good hst) rfl rfl
  | cons b bytes => exact .of_byte (exec_byte_extra b hst) rfl (seqReports_drained bytes _ rfl)

/-- Before the terminal byte DEC reports what the loop of `decode` gives from its accumulator; `LIM * 128` bounds the
accumulator there (R29), which leaves room for any last digit. -/
theorem seqReports_open (bytes : List Byte) : ∀ s : State,
    (s.dec.st = .idle ∧ bytes ≠ []) ∨ s.dec.st = .cont → s.dec.acc ≤ lim s.cfg.W * 128 →
    SeqReports bytes [decodeFrom s.cfg.W s.dec.acc bytes] s := by
  induction bytes with
  | nil =>
    intro s hst _
    have hcont : s.dec.st = .cont := by simpa using hst
    exact .of_end (exec_decEnd_unfinished hcont) rfl rfl
  | cons b bytes ih =>
    intro s hst hacc
    have hopen : s.dec.st = .idle ∨ s.dec.st = .cont := hst.imp_left And.left
    cases hb : byteContinues b with
    | true =>
      rw [decodeFrom_cont bytes hb]
      by_cases hover : lim s.cfg.W < s.dec.acc + (bytePayload b).toNat
      · rw [if_pos hover]
        have hexec := exec_decCont_overflows hopen hover
        rw [← decodeToken_of_continues hb] at hexec
        exact .of_byte hexec rfl (seqReports_drained bytes _ rfl)
      · rw [if_neg hover]
        have hle := Nat.le_of_not_lt hover
        have hexec := exec_decCont_appends hopen hle
        rw [← decodeToken_of_continues hb] at hexec
        exact .of_byte (reps := []) hexec (List.append_nil _).symm
          (ih _ (.inr rfl) (Nat.mul_le_mul_right 128 hle))
    | false =>
      rw [decodeFrom_term bytes hb]
      have hfits : s.dec.acc + (bytePayload b).toNat < 2 ^ s.cfg.W := by
        have hpow := digitRange_le_two_pow_W s.cfg
        have hdigit := bytePayload_lt b
        rw [lim_mul_128 (Config.seven_le_W s.cfg)] at hacc
        omega
      have hexec := exec_decTerm_closes hopen hfits
      rw [← decodeToken_of_not_continues hb] at hexec
      exact .of_byte (reps := []) hexec (List.append_nil _).symm (seqReports_closed bytes rfl)

/-- From IDLE with a clear accumulator DEC reports exactly `decode` of the sequence. -/
theorem seqReports_opDecode (bytes : List Byte) {s : State} (hst : s.dec.st = .idle) (hacc : s.dec.acc = 0) :
    SeqReports bytes [opDecode bytes s.cfg.W] s := by
  cases bytes with
  | nil => exact .of_end (exec_decEnd_empty hst) rfl rfl
  | cons b bytes =>
    have h := seqReports_open (b :: bytes) s (.inl ⟨hst, List.cons_ne_nil _ _⟩) (by simp [hacc])
    rwa [hacc, ← opDecode_of_ne_nil _ (List.cons_ne_nil _ _)] at h

/-- Settles O46: after the RESET ENC is idle, so its turns do nothing, and DEC starts a sequence of its own. -/
theorem resetAbandonsBothOperations : Obligations.ResetAbandonsBothOperations := by
  intro s n bytes
  constructor
  · obtain ⟨t, hrun, ht⟩ := encTurns_idle n (afterReset s) rfl
    refine ⟨t, StepsTo_cons (step_reset_schedule _ s) hrun, ?_⟩
    rcases ht with rfl | rfl <;> exact ⟨rfl, rfl, rfl, rfl⟩
  · obtain ⟨t, hrun, henc, hsink, hreps, hst⟩ := seqReports_opDecode bytes (s := afterReset s) rfl rfl
    exact ⟨t, StepsTo_cons (step_reset_schedule _ s) hrun, hsink, hreps, by rw [henc, afterReset_enc_busy], hst⟩

/-! ### The hold of `ENC.START` -/

/-- No run changes the configuration (R5). -/
theorem StepsTo_cfg {n : Nat} : ∀ {s t : State}, StepsTo n s t → t.cfg = s.cfg := by
  induction n with
  | zero => exact fun h => by rw [(StepsTo_zero _ _).mp h]
  | succ n ih =>
    intro s t h
    obtain ⟨u, hstep, hrun⟩ := (StepsTo_succ _ _ _).mp h
    rw [ih hrun, step_cfg hstep]

/-- An idle ENC accepts a Value that fits, from position `M - 1 = floor(W/7)` (R92). -/
theorem exec_encStart_from_idle {s : State} {v : Nat} (hv : v < 2 ^ s.cfg.W) (hb : s.enc.busy = false) :
    ∃ u, exec (.encStart v) s = .next u ∧ u.enc = ⟨v, s.cfg.W / 7, false, true⟩ :=
  ⟨_, exec_encStart_accepted hv hb, rfl⟩

/-- As many turns as positions are left bring a busy ENC to its terminal step (R95). -/
theorem encTurns_reach_term {s : State} (hb : s.enc.busy = true) :
    ∃ r, StepsTo s.enc.idx (schedule (List.replicate s.enc.idx turnEnc) s) r ∧ r.cfg = s.cfg ∧
      r.enc.busy = true ∧ r.enc.idx = 0 := by
  obtain ⟨r, hrun, hrb, hri, -⟩ := encTurns_descend s.enc.idx (schedule _ s) s.host.sched hb le_rfl rfl
  have hcfg : r.cfg = (schedule (List.replicate s.enc.idx turnEnc) s).cfg := StepsTo_cfg hrun
  exact ⟨r, hrun, hcfg, hrb, hri.trans (Nat.sub_self _)⟩

/-- Settles O52: R25 bounds the positions left; below them `ENC.TERM` clears `E.busy`, as RESET does at once. -/
theorem heldStartHasNoEffectUntilLifted : Obligations.HeldStartHasNoEffectUntilLifted := by
  intro s v hb hv
  refine ⟨by simp [outPorts, hb], exec_encStart_held hv hb, fun hinv => ?_, ?_⟩
  · obtain ⟨hidx, -⟩ := hinv hb
    obtain ⟨r, hrun, hcfg, hrb, hri⟩ := encTurns_reach_term hb
    obtain ⟨u, hu, henc⟩ := exec_encStart_from_idle (v := v) (s := { r with
      enc := { r.enc with busy := false }, seen := emitted (termByte r.enc.val) r.seen }) (by rwa [hcfg]) rfl
    exact ⟨s.enc.idx, r, _, u, Nat.succ_le_succ hidx, hrun, hrb, exec_encTerm_emits hrb hri, rfl, rfl, hu,
      by rw [henc, hcfg]⟩
  · obtain ⟨u, hu, henc⟩ := exec_encStart_from_idle (s := afterReset s) hv rfl
    exact ⟨afterReset s, u, exec_reset s, rfl, hu, henc⟩

/-! ### The lifetime of `D.res` -/

/-- From IDLE with a clear accumulator the first token reports exactly if it is `END` or a continuation byte above
`LIM`. -/
theorem exec_first_token (tok : Token) {s : State} (hst : s.dec.st = .idle) (hacc : s.dec.acc = 0) :
    ∃ t, exec (decodeToken tok) s = .next t ∧
      (t.seen.dDone = true ↔
        decodeToken tok = .decEnd ∨ ∃ p : Digit, decodeToken tok = .decCont p ∧ lim s.cfg.W < p.toNat) := by
  rcases decodeToken_cases tok with h | ⟨p, h⟩ | ⟨p, h⟩ <;> rw [h]
  · exact ⟨_, exec_decEnd_empty hst, iff_of_true rfl (.inl rfl)⟩
  · by_cases hover : lim s.cfg.W < p.toNat
    · exact ⟨_, exec_decCont_overflows (.inl hst) (by simpa [hacc] using hover),
        iff_of_true rfl (.inr ⟨p, rfl, hover⟩)⟩
    · exact ⟨_, exec_decCont_appends (.inl hst) (by simpa [hacc] using hover),
        iff_of_false Bool.false_ne_true (by simpa using hover)⟩
  · have hfits : s.dec.acc + p.toNat < 2 ^ s.cfg.W := by
      rw [hacc, Nat.zero_add]
      exact Nat.lt_of_lt_of_le p.isLt (digitRange_le_two_pow_W s.cfg)
    exact ⟨_, exec_decTerm_closes (.inl hst) hfits, iff_of_false Bool.false_ne_true (by simp)⟩

/-- A single digit exceeds `LIM` for `W <= 13` only: from `W = 14` on `LIM` is at least 127 (R167). -/
theorem exists_digit_gt_lim_iff {w : Nat} : (∃ p : Digit, 2 ^ (w - 7) - 1 < p.toNat) ↔ w ≤ 13 := by
  constructor
  · rintro ⟨p, hp⟩
    by_contra hw
    have hpow : 2 ^ 7 ≤ 2 ^ (w - 7) := Nat.pow_le_pow_right (by decide) (by omega)
    have hdigit := p.isLt
    omega
  · intro hw
    have hpow : 2 ^ (w - 7) ≤ 2 ^ 6 := Nat.pow_le_pow_right (by decide) (by omega)
    exact ⟨127#7, show 2 ^ (w - 7) - 1 < 127 by omega⟩

/-- Settles O48: `step_events` ties `D.res` to the reports, and the ports copy it; the earliest report by
`exec_first_token`. -/
theorem resultRegisterHoldsTheLatestOutcome : Obligations.ResultRegisterHoldsTheLatestOutcome := by
  refine ⟨fun s t hstep hnoreset => ?_, fun s tok hst hacc => ?_, fun c => exists_digit_gt_lim_iff⟩
  · obtain ⟨-, ⟨-, hdone, hres⟩ | ⟨o, hreps, hdone, hres⟩⟩ := step_events hstep
    · have hsame := hres hnoreset
      exact ⟨fun _ => ⟨hsame, by simp [outPorts, hsame], by simp [outPorts, hsame]⟩, by simp [hdone]⟩
    · exact ⟨by simp [hdone], fun _ => ⟨o, hreps, hres, by simp [outPorts, hres], by simp [outPorts, hres]⟩⟩
  · rw [← lim_eq (Config.seven_le_W s.cfg)]
    exact exec_first_token tok hst hacc

end Sys2Proof.Machine
end

section
/-! PROOFS. The operations one at a time: the calls (R10, R80), which operations complete (R5, U1, U2), and that what a
step of ENC does is fixed by `W` and ENC's own fields, so that it commutes with every step of DEC (R42, R49 (c)). -/

namespace Sys2Proof.Machine

open Sys2Proof

/-! ### The width and its constants -/

/-- Settles O1: from 7 on the width is its surplus plus 7. -/
theorem buildsExactlyWidthsFromSeven : Obligations.BuildsExactlyWidthsFromSeven := by
  refine fun w => ⟨fun hw => if_pos hw, fun hw => ⟨⟨w - 7⟩, Nat.sub_add_cancel hw, ?_⟩⟩
  exact if_neg (Nat.not_lt.mpr hw)

/-- Settles O4: linear arithmetic on `M = W / 7 + 1`. -/
theorem payloadBudgetExceedsWidth : Obligations.PayloadBudgetExceedsWidth := by
  intro w hw
  simp only [maxBytes]
  omega

/-- A number from 2 on exceeds every smaller one by exactly `clog2` of its bits. -/
theorem clog2_bounds {n : Nat} (hn : 2 ≤ n) : n - 1 < 2 ^ clog2 n ∧ 2 ^ (clog2 n - 1) < n := by
  rw [clog2_of_two_le hn, Nat.add_sub_cancel]
  have hlow : 2 ^ Nat.log2 (n - 1) ≤ n - 1 := Nat.log2_self_le (by omega)
  exact ⟨Nat.lt_log2_self, by omega⟩

/-- Settles O17: no step changes the configuration, and `clog2_bounds` gives both widths. -/
theorem mBytesPortIsConstant : Obligations.MBytesPortIsConstant := by
  refine ⟨fun s t h => ?_, fun c => ?_⟩
  · have hcfg := step_cfg h
    exact ⟨hcfg, rfl, by rw [← hcfg]; rfl⟩
  · have hone := one_le_maxBytes_sub_one (Config.seven_le_W c)
    have hM : 2 ≤ maxBytes c.W := by omega
    obtain ⟨hfits, hleast⟩ := clog2_bounds (Nat.le_succ_of_le hM)
    obtain ⟨hidxFits, hidxLeast⟩ := clog2_bounds hM
    exact ⟨hfits, hleast, hidxFits, hidxLeast⟩

/-! ### The calls -/

theorem exec_maxBytes {w : Nat} (hw : 7 ≤ w) (s : State) :
    exec (.maxBytes w) s = .next { s with seen := { silent s.seen with call := some (.length (maxBytes w)) } } :=
  if_neg (Nat.not_lt.mpr hw)

theorem exec_encode {v w : Nat} (hw : 7 ≤ w) (hv : v < 2 ^ w) (s : State) :
    exec (.encode v w) s = .next { s with seen := { silent s.seen with
      callSink := s.seen.callSink ++ opEncode v w, call := some (.encoded (opEncode v w)) } } := by
  have hfits : ¬ maxValue w < v := mt (maxValue_lt_iff w v).mp (Nat.not_le.mpr hv)
  exact (if_neg (Nat.not_lt.mpr hw)).trans (if_neg hfits)

theorem exec_decode {w : Nat} (hw : 7 ≤ w) (bytes : List Byte) (s : State) :
    exec (.decode bytes w) s =
      .next { s with seen := { silent s.seen with call := some (.decoded (opDecode bytes w)) } } :=
  if_neg (Nat.not_lt.mpr hw)

/-- Settles O2: the call is `M` of its own width. -/
theorem maxBytesCallReturnsFormula : Obligations.MaxBytesCallReturnsFormula :=
  fun _ s hw => exec_maxBytes hw s

/-- Settles O3: the call at four widths. -/
theorem maxBytesSourceValues : Obligations.MaxBytesSourceValues := fun s =>
  ⟨exec_maxBytes (by decide) s, exec_maxBytes (by decide) s, exec_maxBytes (by decide) s, exec_maxBytes (by decide) s⟩

/-- A call that does not fit is refused by name, the width first (U1, U2). -/
theorem exec_call_refused {c : Call} {W : Nat} (h : (callInstr c).wf W = false) (s : State) :
    exec (callInstr c) s = .refused .widthBelowSeven ∨ exec (callInstr c) s = .refused .valueTooWide := by
  cases c with
  | maxBytes w => exact .inl (if_pos (Nat.lt_of_not_le (of_decide_eq_false h)))
  | decode bytes w => exact .inl (if_pos (Nat.lt_of_not_le (of_decide_eq_false h)))
  | encode v w =>
    by_cases hw : w < 7
    · exact .inl (if_pos hw)
    · have hv : ¬ v < 2 ^ w := by simpa [callInstr, Instr.wf, Nat.le_of_not_lt hw] using h
      have hwide : maxValue w < v := (maxValue_lt_iff w v).mpr (Nat.le_of_not_lt hv)
      exact .inr ((if_neg hw).trans (if_pos hwide))

/-- A call that completes writes the caller's record and nothing of the block (R10). -/
theorem exec_call_next {c : Call} {s t : State} (h : exec (callInstr c) s = .next t) :
    ∃ bytes result, t = { s with seen := { silent s.seen with callSink := bytes, call := result } } := by
  cases c with
  | maxBytes w =>
    by_cases hw : w < 7
    · cases (if_pos hw).symm.trans h
    · cases (exec_maxBytes (Nat.le_of_not_lt hw) s).symm.trans h; exact ⟨_, _, rfl⟩
  | decode bytes w =>
    by_cases hw : w < 7
    · cases (if_pos hw).symm.trans h
    · cases (exec_decode (Nat.le_of_not_lt hw) bytes s).symm.trans h; exact ⟨_, _, rfl⟩
  | encode v w =>
    by_cases hw : w < 7
    · cases (if_pos hw).symm.trans h
    · by_cases hv : maxValue w < v
      · cases ((if_neg hw).trans (if_pos hv)).symm.trans h
      · have hfits : v < 2 ^ w := Nat.lt_of_not_le (mt (maxValue_lt_iff w v).mpr hv)
        cases (exec_encode (Nat.le_of_not_lt hw) hfits s).symm.trans h; exact ⟨_, _, rfl⟩

/-! ### What a step of ENC does -/

/-- The state after an ENC operation that leaves the fields `e`, emits `bytes` and drives `out` on `e_out_byte`: the
counterpart of `decRecorded`. -/
def encRecorded (e : Enc) (bytes : List Byte) (out : Option Byte) (s : State) : State :=
  { s with enc := e, seen := { silent s.seen with sink := s.seen.sink ++ bytes, eOut := out } }

theorem encRecorded_nil (e : Enc) (s : State) : encRecorded e [] none s = { s with enc := e, seen := silent s.seen } := by
  simp [encRecorded, silent]

/-- What the operation does is fixed by `W` and ENC's own fields. -/
def EncLocal (i : Instr) (s : State) : Prop :=
  ∃ e bytes out, ∀ s' : State, s'.cfg = s.cfg → s'.enc = s.enc → exec i s' = .next (encRecorded e bytes out s')

theorem encStart_local {v : Nat} {s : State} (hv : v < 2 ^ s.cfg.W) : EncLocal (.encStart v) s := by
  cases hb : s.enc.busy with
  | false =>
    refine ⟨⟨v, maxBytes s.cfg.W - 1, false, true⟩, [], none, fun s' hc he => ?_⟩
    rw [exec_encStart_accepted (hc ▸ hv) (he ▸ hb), encRecorded_nil, hc]
  | true =>
    refine ⟨s.enc, [], none, fun s' hc he => ?_⟩
    rw [exec_encStart_held (hc ▸ hv) (he ▸ hb), ← he, encRecorded_nil]

theorem encDigit_local (s : State) : EncLocal .encDigit s := by
  by_cases hon : s.enc.busy = true ∧ s.enc.idx ≠ 0
  · obtain ⟨hb, hi⟩ := hon
    by_cases hd : topDigit s.enc.val s.enc.idx ≠ 0 ∨ s.enc.started = true
    · refine ⟨⟨s.enc.val % weight s.enc.idx, s.enc.idx - 1, true, true⟩, [contByte (topDigit s.enc.val s.enc.idx)],
        some (contByte (topDigit s.enc.val s.enc.idx)), fun s' _ he => ?_⟩
      rw [← he] at hb hi hd ⊢
      exact exec_encDigit_emits hb hi hd
    · obtain ⟨hzero, hfirst⟩ := not_or.mp hd
      refine ⟨{ s.enc with idx := s.enc.idx - 1 }, [], none, fun s' _ he => ?_⟩
      rw [← he] at hb hi hzero hfirst ⊢
      rw [exec_encDigit_skips hb hi (not_not.mp hzero) (eq_false_of_ne_true hfirst), encRecorded_nil]
  · refine ⟨s.enc, [], none, fun s' _ he => ?_⟩
    rw [← he] at hon ⊢
    rw [exec_encDigit_disabled hon, encRecorded_nil]

theorem encTerm_local (s : State) : EncLocal .encTerm s := by
  by_cases hon : s.enc.busy = true ∧ s.enc.idx = 0
  · obtain ⟨hb, hi⟩ := hon
    refine ⟨{ s.enc with busy := false }, [termByte s.enc.val], some (termByte s.enc.val), fun s' _ he => ?_⟩
    rw [← he] at hb hi ⊢
    exact exec_encTerm_emits hb hi
  · refine ⟨s.enc, [], none, fun s' _ he => ?_⟩
    rw [← he] at hon ⊢
    rw [exec_encTerm_disabled hon, encRecorded_nil]

/-- What an ENC operation does is fixed by `W` and ENC's own fields: its next fields and what it emits; it touches
nothing else (R42, R49 (c)). -/
theorem exec_enc_local {i : Instr} (s : State) (hi : isEncInstr i = true) (hwf : i.wf s.cfg.W = true) :
    ∃ e bytes out, ∀ s' : State, s'.cfg = s.cfg → s'.enc = s.enc → exec i s' = .next (encRecorded e bytes out s') := by
  cases i with
  | encStart v => exact encStart_local (of_decide_eq_true hwf)
  | encDigit => exact encDigit_local s
  | encTerm => exact encTerm_local s
  | _ => cases hi

/-- Settles O13: each of the two steps is fixed by its own unit's fields, which the other leaves alone. -/
theorem encAndDecStepsCommute : Obligations.EncAndDecStepsCommute := by
  intro i j s hi hj hwf
  obtain ⟨e, bytes, out, henc⟩ := exec_enc_local s hi hwf
  obtain ⟨d, reps, done, hdec⟩ := exec_dec_local s hj
  exact ⟨encRecorded e bytes out s, decRecorded d reps done s, _, _, henc s rfl rfl, hdec _ rfl rfl, hdec s rfl rfl,
    henc _ rfl rfl, rfl, rfl, rfl, rfl, rfl, rfl, rfl⟩

/-! ### Which operations complete -/

theorem exec_of_wf {i : Instr} {s : State} (hwf : i.wf s.cfg.W = true) : ∃ t, exec i s = .next t := by
  have enc (hi : isEncInstr i = true) : ∃ t, exec i s = .next t := by
    obtain ⟨_, _, _, h⟩ := exec_enc_local s hi hwf
    exact ⟨_, h s rfl rfl⟩
  have dec (hi : isDecInstr i = true) : ∃ t, exec i s = .next t := by
    obtain ⟨_, _, _, h⟩ := exec_dec_local s hi
    exact ⟨_, h s rfl rfl⟩
  cases i with
  | maxBytes w => exact ⟨_, exec_maxBytes (of_decide_eq_true hwf) s⟩
  | decode bytes w => exact ⟨_, exec_decode (of_decide_eq_true hwf) bytes s⟩
  | encode v w =>
    obtain ⟨hw, hv⟩ := (Bool.and_eq_true _ _).mp hwf
    exact ⟨_, exec_encode (of_decide_eq_true hw) (of_decide_eq_true hv) s⟩
  | encStart v | encDigit | encTerm => exact enc rfl
  | decCont p | decTerm p | decEnd | cont p | term p => exact dec rfl
  | reset => exact ⟨_, exec_reset s⟩

theorem exec_of_not_wf {i : Instr} {s : State} (hwf : i.wf s.cfg.W = false) :
    exec i s = .refused .widthBelowSeven ∨ exec i s = .refused .valueTooWide := by
  cases i with
  | maxBytes w => exact exec_call_refused (c := .maxBytes w) hwf s
  | encode v w => exact exec_call_refused (c := .encode v w) hwf s
  | decode bytes w => exact exec_call_refused (c := .decode bytes w) hwf s
  | encStart v =>
    have hwide : ¬ v < 2 ^ s.cfg.W := of_decide_eq_false hwf
    rcases execEncStart_cases v s with ⟨_, h⟩ | ⟨hv, _⟩ | ⟨hv, _⟩
    · exact .inr h
    · exact absurd hv hwide
    · exact absurd hv hwide
  | _ => cases hwf

/-- An operation that gives a next state fitted its width (U1, U2). -/
theorem wf_of_exec_next {i : Instr} {s t : State} (h : exec i s = .next t) : i.wf s.cfg.W = true := by
  by_contra hwf
  rcases exec_of_not_wf (Bool.eq_false_iff.mpr hwf) with hrefused | hrefused <;> cases hrefused.symm.trans h

/-- Settles O5, one lemma for each direction. -/
theorem wellFormedOperationsComplete : Obligations.WellFormedOperationsComplete :=
  fun _ _ => ⟨exec_of_wf, exec_of_not_wf⟩

/-! ### What of DEC the other steps touch -/

/-- Only DEC's own steps and RESET write DEC's fields (R42). -/
theorem exec_keeps_dec {i : Instr} {s t : State} (hi : isDecInstr i = false) (hr : i ≠ .reset)
    (h : exec i s = .next t) : t.dec = s.dec := by
  have call {c : Call} (hc : exec (callInstr c) s = .next t) : t.dec = s.dec := by
    obtain ⟨_, _, rfl⟩ := exec_call_next hc
    rfl
  have enc (hi : isEncInstr i = true) : t.dec = s.dec := by
    obtain ⟨_, _, _, hlocal⟩ := exec_enc_local s hi (wf_of_exec_next h)
    cases (hlocal s rfl rfl).symm.trans h
    rfl
  cases i with
  | maxBytes w => exact call (c := .maxBytes w) h
  | encode v w => exact call (c := .encode v w) h
  | decode bytes w => exact call (c := .decode bytes w) h
  | encStart v | encDigit | encTerm => exact enc rfl
  | decCont p | decTerm p | decEnd | cont p | term p => cases hi
  | reset => exact absurd rfl hr

end Sys2Proof.Machine
end

section
/-! PROOFS. The invariant of the machine (R25, R29, R28 with the widths of R20): it holds after reset and every step keeps
it. The two units' parts are kept apart, as the units are. -/

namespace Sys2Proof.Machine

open Sys2Proof

/-! ### The invariant, unit by unit -/

/-- ENC's part: its registers inside their widths, and R25. -/
structure EncOk (w : Nat) (e : Enc) : Prop where
  val : e.val < 2 ^ w
  idx : e.idx < 2 ^ idxBits w
  inv : EncInv w e

/-- The result register's part: R28 and its width. DEC's other part is R29 itself, which bounds `D.acc`
(`DecInv.acc_lt`). -/
structure ResOk (w : Nat) (r : Res) : Prop where
  inv : ResInv r
  value : r.value < 2 ^ w

theorem decInv_idle_iff (w acc : Nat) (r : Res) : DecInv w ⟨acc, .idle, r⟩ ↔ acc = 0 := Iff.rfl

theorem decInv_cont_iff (w acc : Nat) (r : Res) : DecInv w ⟨acc, .cont, r⟩ ↔ acc % 128 = 0 ∧ acc ≤ lim w * 128 := Iff.rfl

theorem decInv_term_iff (w acc : Nat) (r : Res) : DecInv w ⟨acc, .term, r⟩ ↔ acc < 2 ^ w := by
  have hpos := Nat.two_pow_pos w
  change acc ≤ 2 ^ w - 1 ↔ acc < 2 ^ w
  omega

theorem decInv_drain_iff (w acc : Nat) (r : Res) : DecInv w ⟨acc, .drain, r⟩ ↔ acc = 0 := Iff.rfl

/-- R29 keeps the accumulator inside its register in every phase. -/
theorem DecInv.acc_lt {w : Nat} {d : Dec} (hw : 7 ≤ w) (h : DecInv w d) : d.acc < 2 ^ w := by
  obtain ⟨acc, st, r⟩ := d
  have hpos := Nat.two_pow_pos w
  cases st with
  | idle => rw [(decInv_idle_iff w acc r).mp h]; exact hpos
  | cont =>
    obtain ⟨-, hle⟩ := (decInv_cont_iff w acc r).mp h
    rw [lim_mul_128 hw] at hle
    change acc < 2 ^ w
    omega
  | term => exact (decInv_term_iff w acc r).mp h
  | drain => rw [(decInv_drain_iff w acc r).mp h]; exact hpos

theorem inv_iff (s : State) : s.Inv ↔ EncOk s.cfg.W s.enc ∧ DecInv s.cfg.W s.dec ∧ ResOk s.cfg.W s.dec.res := by
  constructor
  · rintro ⟨⟨hval, hidx, -, hvalue⟩, henc, hdec, hres⟩
    exact ⟨⟨hval, hidx, henc⟩, hdec, ⟨hres, hvalue⟩⟩
  · rintro ⟨⟨hval, hidx, henc⟩, hdec, ⟨hres, hvalue⟩⟩
    exact ⟨⟨hval, hidx, hdec.acc_lt (Config.seven_le_W s.cfg), hvalue⟩, henc, hdec, hres⟩

/-! ### ENC -/

theorem encInv_of_idle {w : Nat} {e : Enc} (hb : e.busy = false) : EncInv w e := by
  simp [EncInv, hb]

/-- An accepted `ENC.START` sets R25 up: `2^(7M)` exceeds every Value (R82). -/
theorem EncOk.started {w v : Nat} (hw : 7 ≤ w) (hv : v < 2 ^ w) : EncOk w ⟨v, maxBytes w - 1, false, true⟩ :=
  ⟨hv, maxBytes_sub_one_lt hw, fun _ => ⟨le_rfl, lt_weight_of_lt_two_pow hv⟩⟩

/-- R25 goes down a position with what is left of the Value there. -/
theorem EncOk.descend {w val : Nat} {e : Enc} {b : Bool} (h : EncOk w e) (hb : e.busy = true) (hi : e.idx ≠ 0)
    (hle : val ≤ e.val) (hlt : val < weight e.idx) : EncOk w ⟨val, e.idx - 1, b, true⟩ := by
  obtain ⟨hidx, -⟩ := h.inv hb
  refine ⟨Nat.lt_of_le_of_lt hle h.val, Nat.lt_of_le_of_lt (Nat.sub_le _ _) h.idx, fun _ =>
    ⟨Nat.le_trans (Nat.sub_le _ _) hidx, ?_⟩⟩
  change val < weight (e.idx - 1 + 1)
  rwa [Nat.sub_add_cancel (Nat.pos_of_ne_zero hi)]

/-- Where the digit is 0 the Value lies below the position's weight already. -/
theorem lt_weight_of_topDigit_eq_zero {rem i : Nat} (h : topDigit rem i = 0) : rem < weight i :=
  (Nat.div_eq_zero_iff_lt (weight_pos i)).mp h

theorem execEncStart_keeps_encOk {v : Nat} {s t : State} (h : execEncStart v s = .next t)
    (hok : EncOk s.cfg.W s.enc) : EncOk s.cfg.W t.enc := by
  rcases execEncStart_cases v s with ⟨_, he⟩ | ⟨_, _, he⟩ | ⟨hv, _, he⟩ <;> rw [he] at h <;> cases h
  · exact hok
  · exact .started (Config.seven_le_W s.cfg) hv

theorem execEncDigit_keeps_encOk {s t : State} (h : execEncDigit s = .next t) (hok : EncOk s.cfg.W s.enc) :
    EncOk s.cfg.W t.enc := by
  rcases execEncDigit_cases s with ⟨hb, hi, _, he⟩ | ⟨hb, hi, hd, _, he⟩ | ⟨_, he⟩ <;> rw [he] at h <;> cases h
  · exact hok.descend hb hi (Nat.mod_le _ _) (Nat.mod_lt _ (weight_pos _))
  · have hskip := hok.descend (b := s.enc.started) hb hi le_rfl (lt_weight_of_topDigit_eq_zero hd)
    rwa [← hb] at hskip
  · exact hok

theorem execEncTerm_keeps_encOk {s t : State} (h : execEncTerm s = .next t) (hok : EncOk s.cfg.W s.enc) :
    EncOk s.cfg.W t.enc := by
  rcases execEncTerm_cases s with ⟨_, _, he⟩ | ⟨_, he⟩ <;> rw [he] at h <;> cases h
  · exact ⟨hok.val, hok.idx, encInv_of_idle rfl⟩
  · exact hok

/-- A RESET leaves free values, cut to their registers (R36). -/
theorem afterReset_encOk (s : State) : EncOk s.cfg.W (afterReset s).enc :=
  ⟨Nat.mod_lt _ (Nat.two_pow_pos _), Nat.mod_lt _ (Nat.two_pow_pos _), encInv_of_idle rfl⟩

theorem exec_keeps_encOk {i : Instr} {s t : State} (h : exec i s = .next t) (hok : EncOk s.cfg.W s.enc) :
    EncOk s.cfg.W t.enc := by
  have other (hi : isEncInstr i = false) (hr : i ≠ .reset) : EncOk s.cfg.W t.enc := by
    obtain ⟨henc, -⟩ := exec_keeps_enc hi hr h
    rwa [henc]
  cases i with
  | encStart v => exact execEncStart_keeps_encOk h hok
  | encDigit => exact execEncDigit_keeps_encOk h hok
  | encTerm => exact execEncTerm_keeps_encOk h hok
  | reset => cases h; exact afterReset_encOk s
  | _ => exact other rfl (by simp)

/-! ### DEC -/

theorem consumeCont_keeps_decInv (p : Digit) {s : State} (hinv : DecInv s.cfg.W s.dec) :
    DecInv s.cfg.W (consumeCont p s).dec := by
  rcases consumeCont_cases p s with ⟨_, hle, h⟩ | ⟨_, _, h⟩ | ⟨_, h⟩ | ⟨_, h⟩ <;> rw [h]
  · exact (decInv_cont_iff _ _ _).mpr ⟨Nat.mul_mod_left _ _, Nat.mul_le_mul_right 128 hle⟩
  · exact (decInv_drain_iff _ _ _).mpr rfl
  · exact (decInv_drain_iff _ _ _).mpr rfl
  · exact hinv

theorem consumeTerm_keeps_decInv (p : Digit) {s : State} (hinv : DecInv s.cfg.W s.dec) :
    DecInv s.cfg.W (consumeTerm p s).dec := by
  rcases consumeTerm_cases p s with ⟨_, h⟩ | ⟨_, h⟩ | ⟨_, h⟩ <;> rw [h]
  · exact (decInv_term_iff _ _ _).mpr (Nat.mod_lt _ (Nat.two_pow_pos _))
  · exact (decInv_drain_iff _ _ _).mpr rfl
  · exact hinv

theorem consumeEnd_keeps_decInv {s : State} (hinv : DecInv s.cfg.W s.dec) : DecInv s.cfg.W (consumeEnd s).dec := by
  rcases consumeEnd_cases s with ⟨_, h⟩ | ⟨_, h⟩ | ⟨_, h⟩ | ⟨hst, h⟩ <;> rw [h]
  · exact (decInv_idle_iff _ _ _).mpr rfl
  · exact (decInv_idle_iff _ _ _).mpr rfl
  · exact (decInv_idle_iff _ _ _).mpr rfl
  · have hacc : s.dec.acc = 0 := by simpa [DecInv, hst] using hinv
    exact (decInv_idle_iff _ _ _).mpr hacc

theorem exec_keeps_decInv {i : Instr} {s t : State} (h : exec i s = .next t) (hinv : DecInv s.cfg.W s.dec) :
    DecInv s.cfg.W t.dec := by
  have other (hi : isDecInstr i = false) (hr : i ≠ .reset) : DecInv s.cfg.W t.dec := by
    rwa [exec_keeps_dec hi hr h]
  cases i with
  | decCont p | cont p => cases h; exact consumeCont_keeps_decInv p (s := quiet s) hinv
  | decTerm p | term p => cases h; exact consumeTerm_keeps_decInv p (s := quiet s) hinv
  | decEnd => cases h; exact consumeEnd_keeps_decInv (s := quiet s) hinv
  | reset => cases h; exact (decInv_idle_iff _ _ _).mpr rfl
  | _ => exact other rfl (by simp)

theorem resOk_error (w : Nat) (st : Status) : ResOk w ⟨st, 0⟩ := ⟨fun _ => rfl, Nat.two_pow_pos w⟩

/-- `D.res` is written by a report, whose value is the accumulator's, or by RESET. -/
theorem exec_keeps_resOk {i : Instr} {s t : State} (h : exec i s = .next t) (hinv : DecInv s.cfg.W s.dec)
    (hres : ResOk s.cfg.W s.dec.res) : ResOk s.cfg.W t.dec.res := by
  obtain ⟨-, ⟨-, -, hsame⟩ | ⟨o, hreps, -, hnew⟩⟩ := exec_events h
  · by_cases hi : i = .reset
    · subst hi; cases h
      exact resOk_error _ .none
    · rwa [hsame hi]
  · obtain ⟨hcond, -⟩ := exec_of_report h hreps
    rw [hnew]
    cases o with
    | err k => exact resOk_error _ (errorStatus k)
    | ok v =>
      obtain ⟨-, -, rfl⟩ := hcond
      exact ⟨fun hne => absurd rfl hne, hinv.acc_lt (Config.seven_le_W s.cfg)⟩

/-! ### The machine -/

theorem exec_keeps_inv {i : Instr} {s t : State} (h : exec i s = .next t) (hinv : s.Inv) : t.Inv := by
  obtain ⟨hcfg, -⟩ := exec_cfg_host h
  obtain ⟨henc, hdec, hres⟩ := (inv_iff s).mp hinv
  rw [inv_iff, hcfg]
  exact ⟨exec_keeps_encOk h henc, exec_keeps_decInv h hdec, exec_keeps_resOk h hdec hres⟩

/-- The invariant speaks of the two units and the width only, so taking the turn and lowering the strobes keep it. -/
theorem takeTurn_inv {s : State} (hinv : s.Inv) : (takeTurn s).Inv := (inv_iff (takeTurn s)).mpr ((inv_iff s).mp hinv)

theorem quiet_inv {s : State} (hinv : s.Inv) : (quiet s).Inv := (inv_iff (quiet s)).mpr ((inv_iff s).mp hinv)

/-- Settles O15: a step runs one operation, and each keeps the parts of both units. -/
theorem everyStepKeepsTheInvariant : Obligations.EveryStepKeepsTheInvariant := by
  intro s t hinv hstep
  rcases step_cases hstep with ⟨i, _, hexec⟩ | ⟨_, rfl⟩
  · exact exec_keeps_inv hexec (takeTurn_inv hinv)
  · exact quiet_inv (takeTurn_inv hinv)

theorem resetAt_inv (c : Config) : (State.resetAt c).Inv :=
  (inv_iff _).mpr ⟨⟨Nat.two_pow_pos _, Nat.two_pow_pos _, encInv_of_idle rfl⟩, rfl, resOk_error _ .none⟩

/-- Settles O16, at every width by `resetAt_inv`. -/
theorem resetStateMeetsTheInvariant : Obligations.ResetStateMeetsTheInvariant := ⟨resetAt_inv _, resetAt_inv⟩

end Sys2Proof.Machine
end

section
/-! PROOFS. Runs of one unit: ENC's turns emit `encode` of the Value (R98), DEC's tokens report `decode` of each sequence
(R124), the loop from one to the other (R168), return from an error (R150), and the hold of `ENC.START` (R164). -/

namespace Sys2Proof.Machine

open Sys2Proof

/-! ### Runs -/

theorem StepsTo_unique {n : Nat} {s t u : State} (ht : StepsTo n s t) (hu : StepsTo n s u) : t = u :=
  Host.Outcome.next.inj (ht.symm.trans hu)

theorem StepsTo_one {s t : State} (h : step s = .next t) : StepsTo 1 s t :=
  StepsTo_cons h ((StepsTo_zero _ _).mpr rfl)

/-! ### ENC -/

/-- What a run of ENC leaves alone, and what it emits (R101). -/
structure EncRun (bytes : List Byte) (s t : State) : Prop where
  cfg : t.cfg = s.cfg
  dec : t.dec = s.dec
  host : t.host = s.host
  free : t.free = s.free
  reports : t.seen.reports = s.seen.reports
  sink : t.seen.sink = s.seen.sink ++ bytes

theorem EncRun.trans {xs ys : List Byte} {s t u : State} (h : EncRun xs s t) (h' : EncRun ys t u) :
    EncRun (xs ++ ys) s u :=
  ⟨h'.cfg.trans h.cfg, h'.dec.trans h.dec, h'.host.trans h.host, h'.free.trans h.free, h'.reports.trans h.reports,
    by rw [h'.sink, h.sink, List.append_assoc]⟩

/-- Where `ENC.DIGIT` emits, the loop of `encode` emits the same digit and goes on with the same remainder (R90, R93). -/
theorem encodeFrom_emits {i val : Nat} {b : Bool} (h : topDigit val (i + 1) ≠ 0 ∨ b = true) :
    encodeFrom (i + 1) val b = [contByte (topDigit val (i + 1))] ++ encodeFrom i (val % weight (i + 1)) true := by
  rw [encodeFrom, if_pos ((digitEmits_iff _ _).mpr h), afterDigit_eq_mod]
  rfl

theorem encodeFrom_skips {i val : Nat} {b : Bool} (h : ¬ (topDigit val (i + 1) ≠ 0 ∨ b = true)) :
    encodeFrom (i + 1) val b = [] ++ encodeFrom i val b := by
  rw [encodeFrom, if_neg (mt (digitEmits_iff _ _).mp h)]
  rfl

/-- One turn of ENC above position 0 is one pass of the loop of `encode`. -/
theorem exec_encDigit_refines {s : State} {i : Nat} (hb : s.enc.busy = true) (hi : s.enc.idx = i + 1) :
    ∃ t bytes, exec .encDigit s = .next t ∧ EncRun bytes s t ∧ t.enc.busy = true ∧ t.enc.idx = i ∧
      encodeFrom (i + 1) s.enc.val s.enc.started = bytes ++ encodeFrom i t.enc.val t.enc.started := by
  have hne : s.enc.idx ≠ 0 := by omega
  by_cases hd : topDigit s.enc.val (i + 1) ≠ 0 ∨ s.enc.started = true
  · exact ⟨_, _, exec_encDigit_emits hb hne (hi ▸ hd), ⟨rfl, rfl, rfl, rfl, rfl, rfl⟩, rfl,
      by simp [hi], by rw [encodeFrom_emits hd, hi]⟩
  · obtain ⟨hzero, hfirst⟩ := not_or.mp hd
    exact ⟨_, _, exec_encDigit_skips hb hne (hi ▸ not_not.mp hzero) (eq_false_of_ne_true hfirst),
      ⟨rfl, rfl, rfl, rfl, rfl, (List.append_nil _).symm⟩, hb, by simp [hi], encodeFrom_skips hd⟩

/-- An ENC operation that writes nothing of the host's side passes over the schedule (R42). -/
theorem exec_enc_schedule {i : Instr} {s t : State} (hi : isEncInstr i = true) (h : exec i s = .next t)
    (ts : List Turn) : exec i (schedule ts s) = .next (schedule ts t) := by
  obtain ⟨e, bytes, out, hlocal⟩ := exec_enc_local s hi (wf_of_exec_next h)
  cases (hlocal s rfl rfl).symm.trans h
  exact hlocal (schedule ts s) rfl rfl

/-- From position `i` on, `i + 1` turns emit what the loop of `encode` emits from there, and end the operation (R98). -/
theorem encTurns_refine (ts : List Turn) (i : Nat) : ∀ s : State, s.enc.busy = true → s.enc.idx = i →
    ∃ t, StepsTo (i + 1) (schedule (List.replicate (i + 1) turnEnc ++ ts) s) (schedule ts t) ∧
      EncRun (encodeFrom i s.enc.val s.enc.started) s t ∧ t.enc.busy = false := by
  induction i with
  | zero =>
    intro s hb hi
    have hstep : step (schedule (turnEnc :: ts) s) = _ :=
      (step_enc_term (s := schedule ts s) hb hi).trans (exec_enc_schedule rfl (exec_encTerm_emits hb hi) ts)
    exact ⟨_, StepsTo_one hstep, ⟨rfl, rfl, rfl, rfl, rfl, rfl⟩, rfl⟩
  | succ i ih =>
    intro s hb hi
    obtain ⟨u, bytes, hexec, hrun, hub, hui, hbytes⟩ := exec_encDigit_refines hb hi
    have hstep : step (schedule (List.replicate (i + 1 + 1) turnEnc ++ ts) s) =
        .next (schedule (List.replicate (i + 1) turnEnc ++ ts) u) :=
      (step_enc_digit (s := schedule (List.replicate (i + 1) turnEnc ++ ts) s) hb (by simp [hi])).trans
        (exec_enc_schedule rfl hexec _)
    obtain ⟨t, hrest, hrun', htb⟩ := ih u hub hui
    exact ⟨t, StepsTo_cons hstep hrest, hbytes ▸ hrun.trans hrun', htb⟩

/-- An idle ENC accepts the oldest pending command, which leaves the list (R92). -/
theorem step_start_schedule {s : State} {v : Nat} {cs : List Nat} (hc : s.host.cmds = v :: cs)
    (hb : s.enc.busy = false) (hv : v < 2 ^ s.cfg.W) (ts : List Turn) :
    step (schedule (turnStart :: ts) s) = .next (schedule ts { s with
      enc := ⟨v, maxBytes s.cfg.W - 1, false, true⟩, host := { s.host with cmds := cs }, seen := silent s.seen }) :=
  (step_start_accepted (s := schedule ts s) hc hb).trans
    (exec_encStart_accepted (s := { schedule ts s with host := { (schedule ts s).host with cmds := cs } }) hv hb)

/-- The accepted command starts the loop of `encode` at position `M - 1`, and each turn is one pass (R98). -/
theorem encRun_refines (ts : List Turn) {s : State} {v : Nat} (hb : s.enc.busy = false) (hv : v < 2 ^ s.cfg.W) :
    ∃ t, StepsTo (maxBytes s.cfg.W + 1) (schedule (encRun s.cfg.W ++ ts) (present [v] s)) (schedule ts t) ∧
      EncRun (opEncode v s.cfg.W) s t ∧ t.enc.busy = false := by
  obtain ⟨t, hrun, hframe, htb⟩ := encTurns_refine ts (maxBytes s.cfg.W - 1)
    { s with enc := ⟨v, maxBytes s.cfg.W - 1, false, true⟩, seen := silent s.seen } rfl rfl
  have hstart := step_start_schedule (s := present [v] s) rfl hb hv (List.replicate (maxBytes s.cfg.W) turnEnc ++ ts)
  exact ⟨t, StepsTo_cons hstart hrun,
    ⟨hframe.cfg, hframe.dec, hframe.host, hframe.free, hframe.reports, hframe.sink⟩, htb⟩

/-- Settles O25, by `encRun_refines` with nothing scheduled after it. -/
theorem encStepsRefineEncode : Obligations.EncStepsRefineEncode := by
  intro s v hb hv
  obtain ⟨t, hrun, hframe, htb⟩ := encRun_refines [] hb hv
  rw [List.append_nil, schedule_nil] at hrun
  exact ⟨t, hrun, htb, hframe.sink, hframe.dec, hframe.reports, hframe.host, hframe.cfg, hframe.free⟩

/-! ### DEC -/

/-- What a run of DEC leaves alone, what it reports, and what it keeps: `D.res` shows the last report (R167), and R29. -/
structure DecRun (outs : List DecOutcome) (s t : State) : Prop where
  cfg : t.cfg = s.cfg
  enc : t.enc = s.enc
  host : t.host = s.host
  free : t.free = s.free
  sink : t.seen.sink = s.seen.sink
  reports : t.seen.reports = s.seen.reports ++ outs
  res : t.dec.res = outs.foldl (fun _ o => resOf o) s.dec.res
  inv : DecInv s.cfg.W s.dec → DecInv t.cfg.W t.dec

theorem DecRun.refl (s : State) : DecRun [] s s :=
  ⟨rfl, rfl, rfl, rfl, rfl, (List.append_nil _).symm, rfl, id⟩

theorem DecRun.trans {xs ys : List DecOutcome} {s t u : State} (h : DecRun xs s t) (h' : DecRun ys t u) :
    DecRun (xs ++ ys) s u :=
  ⟨h'.cfg.trans h.cfg, h'.enc.trans h.enc, h'.host.trans h.host, h'.free.trans h.free, h'.sink.trans h.sink,
    by rw [h'.reports, h.reports, List.append_assoc], by rw [h'.res, h.res, List.foldl_append], h'.inv ∘ h.inv⟩

theorem DecRun.of_exec {i : Instr} {s t : State} (hi : isDecInstr i = true) (h : exec i s = .next t) :
    ∃ outs, DecRun outs s t := by
  have hframe : t.cfg = s.cfg ∧ t.enc = s.enc ∧ t.host = s.host ∧ t.free = s.free ∧ t.seen.sink = s.seen.sink := by
    obtain ⟨d, reps, done, hlocal⟩ := exec_dec_local s hi
    cases (hlocal s rfl rfl).symm.trans h
    exact ⟨rfl, rfl, rfl, rfl, rfl⟩
  obtain ⟨hcfg, henc, hhost, hfree, hsink⟩ := hframe
  have hinv : DecInv s.cfg.W s.dec → DecInv t.cfg.W t.dec := hcfg ▸ exec_keeps_decInv h
  have hr : i ≠ .reset := by rintro rfl; cases hi
  obtain ⟨-, ⟨hreps, -, hres⟩ | ⟨o, hreps, -, hres⟩⟩ := exec_events h
  · exact ⟨[], hcfg, henc, hhost, hfree, hsink, hreps.trans (List.append_nil _).symm, hres hr, hinv⟩
  · exact ⟨[o], hcfg, henc, hhost, hfree, hsink, hreps, hres, hinv⟩

/-- Every list of tokens is consumed, in every phase, whatever is scheduled after it (R67). -/
theorem tokens_run (toks : List Token) (ts : List Turn) : ∀ s : State, ∃ t outs,
    StepsTo toks.length (schedule (toks.map (fun tok => turnOf (.token tok)) ++ ts) s) (schedule ts t) ∧
      DecRun outs s t := by
  induction toks with
  | nil => exact fun s => ⟨s, [], (StepsTo_zero _ _).mpr rfl, .refl s⟩
  | cons tok toks ih =>
    intro s
    obtain ⟨u, hu⟩ := exec_decodeToken_total tok s
    obtain ⟨xs, hxs⟩ := DecRun.of_exec (isDecInstr_decodeToken tok) hu
    obtain ⟨t, ys, hrun, hys⟩ := ih u
    exact ⟨t, xs ++ ys, StepsTo_cons (step_token_schedule hu _) hrun, hxs.trans hys⟩

theorem decSeq_eq_tokens (bytes : List Byte) :
    decSeq bytes = (bytes.map byteToken ++ [endToken]).map fun tok => turnOf (.token tok) := by
  simp [decSeq, turnByte, turnEnd, Function.comp_def]

/-- A sequence that reports `outs` does so as a run of DEC, and leaves what is scheduled after it. -/
theorem SeqReports.decRun {bytes : List Byte} {outs : List DecOutcome} {ts : List Turn} {s : State}
    (h : SeqReports bytes outs (schedule ts s)) (hinv : DecInv s.cfg.W s.dec) :
    ∃ t, StepsTo (bytes.length + 1) (schedule (decSeq bytes ++ ts) s) (schedule ts t) ∧ DecRun outs s t ∧
      t.dec = ⟨0, .idle, outs.foldl (fun _ o => resOf o) s.dec.res⟩ := by
  obtain ⟨u, hrun, -, -, hreps, hst⟩ := h
  obtain ⟨t, outs', hrun', hdec⟩ := tokens_run (bytes.map byteToken ++ [endToken]) ts s
  rw [← decSeq_eq_tokens, List.length_append, List.length_map] at hrun'
  obtain rfl : u = schedule ts t := StepsTo_unique (schedule_append _ ts s ▸ hrun) hrun'
  obtain rfl : outs = outs' := List.append_cancel_left (hreps.symm.trans hdec.reports)
  have hidle : t.dec.st = .idle := hst
  have hacc : t.dec.acc = 0 := by simpa [DecInv, hidle] using hdec.inv hinv
  refine ⟨t, hrun', hdec, ?_⟩
  calc t.dec = ⟨t.dec.acc, t.dec.st, t.dec.res⟩ := rfl
    _ = _ := by rw [hacc, hidle, hdec.res]

/-- From IDLE with a clear accumulator a sequence reports `decode` of it and leaves DEC there again (R124). -/
theorem decSeq_run (bytes : List Byte) (ts : List Turn) {s : State} (hst : s.dec.st = .idle) (hacc : s.dec.acc = 0) :
    ∃ t, StepsTo (bytes.length + 1) (schedule (decSeq bytes ++ ts) s) (schedule ts t) ∧
      DecRun [opDecode bytes s.cfg.W] s t ∧ t.dec = ⟨0, .idle, resOf (opDecode bytes s.cfg.W)⟩ := by
  have hinv : DecInv s.cfg.W s.dec := by simpa [DecInv, hst] using hacc
  exact (seqReports_opDecode bytes (s := schedule ts s) hst hacc).decRun hinv

/-- Settles O38: the reports are those of the loop of `decode`; the frame, `D.res` and R29 hold of every run of DEC. -/
theorem decStepsRefineDecode : Obligations.DecStepsRefineDecode := by
  intro s bytes hst hacc
  obtain ⟨t, hrun, hdec, htdec⟩ := decSeq_run bytes [] hst hacc
  rw [List.append_nil, schedule_nil] at hrun
  exact ⟨t, hrun, hdec.reports, by rw [htdec], by rw [htdec], by rw [htdec], hdec.enc, hdec.sink, hdec.host, hdec.cfg,
    hdec.free⟩

/-- Settles O39, by induction on the sequences: each leaves DEC as it found it, and the rest of the schedule in front. -/
theorem oneOutcomePerSequenceInOrder : Obligations.OneOutcomePerSequenceInOrder := by
  intro s seqs
  induction seqs generalizing s with
  | nil => exact fun hst hacc => ⟨s, (StepsTo_zero _ _).mpr rfl, (List.append_nil _).symm, hst, hacc, rfl, rfl⟩
  | cons bytes seqs ih =>
    intro hst hacc
    obtain ⟨u, hrun, hdec, hudec⟩ := decSeq_run bytes (seqs.flatMap decSeq) hst hacc
    obtain ⟨t, hrest, hreps, htst, htacc, henc, hhost⟩ := ih u (by rw [hudec]) (by rw [hudec])
    refine ⟨t, ?_, ?_, htst, htacc, henc.trans hdec.enc, hhost.trans hdec.host⟩
    · have hlen : ((bytes :: seqs).flatMap decSeq).length = bytes.length + 1 + (seqs.flatMap decSeq).length := by
        rw [List.flatMap_cons, List.length_append, decSeq, List.length_append, List.length_map, List.length_singleton]
      rw [hlen]
      exact StepsTo_trans hrun hrest
    · rw [hreps, hdec.reports, hdec.cfg, List.append_assoc]
      rfl

/-- Settles O43: the drained run reports nothing, so `D.res` stays, and DEC is where O38's run begins. -/
theorem drainDiscardsThenNextSequenceDecodes : Obligations.DrainDiscardsThenNextSequenceDecodes := by
  intro s junk bytes hst hacc
  have drained (ts : List Turn) : ∃ t, StepsTo (junk.length + 1) (schedule (decSeq junk ++ ts) s) (schedule ts t) ∧
      DecRun [] s t ∧ t.dec = ⟨0, .idle, s.dec.res⟩ := by
    have hinv : DecInv s.cfg.W s.dec := by simpa [DecInv, hst] using hacc
    exact (seqReports_drained junk (schedule ts s) hst).decRun hinv
  constructor
  · obtain ⟨t, hrun, hdec, htdec⟩ := drained []
    rw [List.append_nil, schedule_nil] at hrun
    exact ⟨t, hrun, by rw [htdec, ← hacc], by rw [hdec.reports, List.append_nil], hdec.enc, hdec.sink, hdec.host,
      hdec.cfg, hdec.free⟩
  · obtain ⟨u, hrun, hdec, hudec⟩ := drained (decSeq bytes)
    obtain ⟨t, hrest, hreps, htst, htacc, hres, henc, hsink, hhost, hcfg, hfree⟩ :=
      decStepsRefineDecode u bytes (by rw [hudec]) (by rw [hudec])
    rw [hdec.cfg] at hreps hres
    rw [hdec.reports, List.append_nil] at hreps
    exact ⟨t, StepsTo_trans hrun hrest, hreps, htst, htacc, hres, henc.trans hdec.enc, hsink.trans hdec.sink,
      hhost.trans hdec.host, hcfg.trans hdec.cfg, hfree.trans hdec.free⟩

/-! ### The loop from ENC to DEC -/

/-- Settles O40: ENC's run, then DEC's, and the round trip of the two functions. -/
theorem loopbackReportsTheValue : Obligations.LoopbackReportsTheValue := by
  intro s v hb hst hacc hv
  obtain ⟨u, henc, huenc, hub⟩ := encRun_refines (decSeq (opEncode v s.cfg.W)) hb hv
  obtain ⟨t, hdec, htdec, hres⟩ := decSeq_run (opEncode v s.cfg.W) [] (s := u) (by rw [huenc.dec, hst])
    (by rw [huenc.dec, hacc])
  have hround : opDecode (opEncode v s.cfg.W) u.cfg.W = .ok v := by
    rw [huenc.cfg]
    exact opDecode_opEncode (Config.seven_le_W s.cfg) hv
  have hlen : (loopRun v s.cfg.W).length = maxBytes s.cfg.W + 1 + ((opEncode v s.cfg.W).length + 1) := by
    simp only [loopRun, encRun, decSeq, List.length_append, List.length_cons, List.length_replicate, List.length_map,
      List.length_nil]
  rw [hround] at htdec hres
  rw [List.append_nil, schedule_nil] at hdec
  refine ⟨t, opEncode v s.cfg.W, hlen ▸ StepsTo_trans henc hdec, htdec.sink.trans huenc.sink, rfl, ?_, ?_, ?_, ?_⟩
  · rw [htdec.reports, huenc.reports]
  · rw [hres]; rfl
  · rw [htdec.enc, hub]
  · rw [hres]

/-! ### The hold of `ENC.START` -/

/-- A lifted hold lets the command in, which leaves the host's list (R164). -/
theorem step_start_lifted {s : State} {v : Nat} {cs : List Nat} (hc : s.host.cmds = v :: cs) (hb : s.enc.busy = false)
    (hv : v < 2 ^ s.cfg.W) : ∃ u, step (schedule [turnStart] s) = .next u ∧ u.enc = ⟨v, s.cfg.W / 7, false, true⟩ ∧
      u.host = { s.host with cmds := cs } :=
  ⟨_, step_start_schedule hc hb hv [], rfl, rfl⟩

/-- Settles O47: ENC's turns end the operation and leave the host's side alone, as a RESET does at once. -/
theorem startIsHeldWhileBusy : Obligations.StartIsHeldWhileBusy := by
  intro s v cs hb hc hv
  refine ⟨(step_start_held hc hb).trans (exec_encStart_held hv hb), fun hinv => ?_, ?_⟩
  · obtain ⟨hidx, -⟩ := hinv hb
    obtain ⟨t, hrun, hframe, htb⟩ := encTurns_refine [] s.enc.idx s hb rfl
    rw [List.append_nil, schedule_nil] at hrun
    obtain ⟨u, hu, huenc, huhost⟩ := step_start_lifted (by rw [hframe.host, hc]) htb (by rwa [hframe.cfg])
    exact ⟨s.enc.idx + 1, t, u, Nat.succ_le_succ hidx, hrun, htb, hframe.host, hu, by rw [huenc, hframe.cfg],
      by rw [huhost, hframe.host]⟩
  · obtain ⟨u, hu, huenc, huhost⟩ := step_start_lifted (s := afterReset s) hc rfl hv
    exact ⟨afterReset s, u, step_reset_schedule [] s, rfl, rfl, hu, huenc, huhost⟩

end Sys2Proof.Machine
end

section
/-! PROOFS. Interleavings of the two units (R49 (c), U10): what a turn of ENC does is fixed by ENC's side of the state,
what a turn of DEC does by DEC's side, and neither writes the other's. -/

namespace Sys2Proof.Machine

open Sys2Proof

/-! ### What a turn offers -/

/-- A step drops the head of the schedule, and a command where one is accepted. -/
theorem step_host {s t : State} (h : step s = .next t) : t.host = (takeTurn s).host := by
  rcases step_cases h with ⟨i, _, hexec⟩ | ⟨_, rfl⟩
  · exact (exec_cfg_host hexec).2
  · rfl

theorem isEncTurn_iff (t : Turn) : isEncTurn t = true ↔ t = turnEnc ∨ t = turnStart := by
  obtain ⟨rst, offer⟩ := t
  have hrst : rst = 0#1 ∨ rst = 1#1 := by revert rst; decide
  rcases hrst with rfl | rfl <;> cases offer <;> simp [isEncTurn, turnEnc, turnStart, turnOf]

theorem isDecTurn_iff (t : Turn) :
    isDecTurn t = true ↔ (∃ tok, t = turnOf (.token tok)) ∨ ∃ b, t = turnOf (.wire b) := by
  obtain ⟨rst, offer⟩ := t
  have hrst : rst = 0#1 ∨ rst = 1#1 := by revert rst; decide
  rcases hrst with rfl | rfl <;> cases offer <;> simp [isDecTurn, turnOf]

/-- No turn moves both units. -/
theorem not_isEncTurn_of_isDecTurn {t : Turn} (h : isDecTurn t = true) : ¬ isEncTurn t = true := by
  rcases (isDecTurn_iff t).mp h with ⟨tok, rfl⟩ | ⟨b, rfl⟩ <;> exact Bool.false_ne_true

theorem not_isDecTurn_of_isEncTurn {t : Turn} (h : isEncTurn t = true) : ¬ isDecTurn t = true :=
  fun hd => not_isEncTurn_of_isDecTurn hd h

theorem isDecInstr_decodeByte (b : Byte) : isDecInstr (decodeByte b) = true := by
  unfold decodeByte
  split <;> rfl

/-- A turn of DEC offers one of DEC's operations, whatever the state. -/
theorem offered_of_isDecTurn {t : Turn} (ht : isDecTurn t = true) :
    ∃ i, isDecInstr i = true ∧ ∀ s, currentTurn s = t → offered s = some i := by
  rcases (isDecTurn_iff t).mp ht with ⟨tok, rfl⟩ | ⟨b, rfl⟩
  · exact ⟨_, isDecInstr_decodeToken tok, fun s hs => offered_of_token (by rw [hs]; rfl) (by rw [hs]; rfl)⟩
  · exact ⟨_, isDecInstr_decodeByte b, fun s hs => offered_of_wire (by rw [hs]; rfl) (by rw [hs]; rfl)⟩

theorem offered_of_turnEnc {s : State} (hs : currentTurn s = turnEnc) : offered s = internalStep s.enc := by
  simp [offered, presented, hs, turnEnc, turnOf]

theorem offered_of_turnStart {s : State} (hs : currentTurn s = turnStart) :
    offered s = s.host.cmds.head?.map .encStart := by
  cases hc : s.host.cmds <;> simp [offered, presented, hs, turnStart, turnOf, hc, commandPort, readPort, decodeWord]

/-- The pending commands fit the width (U1). -/
def CmdsFit (s : State) : Prop := ∀ v ∈ s.host.cmds, v < 2 ^ s.cfg.W

/-- A turn of ENC offers one of ENC's operations, or none. -/
theorem offered_of_isEncTurn {s : State} (ht : isEncTurn (currentTurn s) = true) (hfit : CmdsFit s) {i : Instr}
    (ho : offered s = some i) : isEncInstr i = true ∧ i.wf s.cfg.W = true := by
  rcases (isEncTurn_iff _).mp ht with hs | hs
  · rw [offered_of_turnEnc hs, internalStep] at ho
    split at ho
    · split at ho <;> cases ho <;> exact ⟨rfl, rfl⟩
    · cases ho
  · rw [offered_of_turnStart hs] at ho
    obtain ⟨v, hv, rfl⟩ := Option.map_eq_some_iff.mp ho
    exact ⟨rfl, decide_eq_true (hfit v (List.mem_of_head? hv))⟩

/-! ### The two sides of the state -/

/-- ENC's side: what its turns read and write. -/
structure EncAlike (s s' : State) : Prop where
  cfg : s'.cfg = s.cfg
  enc : s'.enc = s.enc
  sink : s'.seen.sink = s.seen.sink
  cmds : s'.host.cmds = s.host.cmds

/-- DEC's side: what its turns read and write. -/
structure DecAlike (s s' : State) : Prop where
  cfg : s'.cfg = s.cfg
  dec : s'.dec = s.dec
  reports : s'.seen.reports = s.seen.reports

theorem EncAlike.offered_eq {s s' : State} (h : EncAlike s s') (ht : isEncTurn (currentTurn s) = true)
    (hturn : currentTurn s' = currentTurn s) : offered s' = offered s := by
  rcases (isEncTurn_iff _).mp ht with hs | hs
  · rw [offered_of_turnEnc hs, offered_of_turnEnc (hturn.trans hs), h.enc]
  · rw [offered_of_turnStart hs, offered_of_turnStart (hturn.trans hs), h.cmds]

theorem EncAlike.takeTurn {s s' : State} (h : EncAlike s s') (ho : offered s' = offered s) :
    EncAlike (takeTurn s) (takeTurn s') := by
  refine ⟨h.cfg, h.enc, h.sink, ?_⟩
  simp only [takeTurn_host_cmds, afterCommand, ho, h.enc, h.cmds]

theorem afterCommand_subset (i : Option Instr) (s : State) : afterCommand i s ⊆ s.host.cmds := by
  unfold afterCommand
  split
  · split
    · exact List.Subset.refl _
    · exact List.tail_subset _
  · exact List.Subset.refl _

theorem CmdsFit.step {s t : State} (h : CmdsFit s) (hstep : step s = .next t) : CmdsFit t := by
  intro v hv
  rw [step_host hstep] at hv
  rw [step_cfg hstep]
  exact h v (afterCommand_subset _ _ hv)

/-- A turn of ENC does the same to any two states with the same ENC side, and leaves DEC's side alone. -/
theorem encTurn_alike {s s' : State} (h : EncAlike s s') (hfit : CmdsFit s) (ht : isEncTurn (currentTurn s) = true)
    (hturn : currentTurn s' = currentTurn s) :
    ∃ t t', step s = .next t ∧ step s' = .next t' ∧ EncAlike t t' ∧ DecAlike s t := by
  have ho' := h.offered_eq ht hturn
  obtain ⟨hcfg, henc, hsink, hcmds⟩ := h.takeTurn ho'
  cases ho : offered s with
  | none => exact ⟨_, _, step_none ho, step_none (ho'.trans ho), ⟨hcfg, henc, hsink, hcmds⟩, ⟨rfl, rfl, rfl⟩⟩
  | some i =>
    obtain ⟨hi, hwf⟩ := offered_of_isEncTurn ht hfit ho
    obtain ⟨e, bytes, out, hlocal⟩ := exec_enc_local s hi hwf
    exact ⟨_, _, (step_some ho).trans (hlocal _ rfl rfl), (step_some (ho'.trans ho)).trans (hlocal _ hcfg henc),
      ⟨hcfg, rfl, congrArg (· ++ bytes) hsink, hcmds⟩, ⟨rfl, rfl, rfl⟩⟩

theorem afterCommand_of_isDecInstr {i : Instr} (hi : isDecInstr i = true) (s : State) :
    afterCommand (some i) s = s.host.cmds := by
  cases i with
  | encStart v => cases hi
  | _ => rfl

/-- A turn of DEC does the same to any two states with the same DEC side, and leaves ENC's side alone. -/
theorem decTurn_alike {s s' : State} (h : DecAlike s s') (ht : isDecTurn (currentTurn s) = true)
    (hturn : currentTurn s' = currentTurn s) :
    ∃ t t', step s = .next t ∧ step s' = .next t' ∧ DecAlike t t' ∧ EncAlike s t := by
  obtain ⟨i, hi, hoffer⟩ := offered_of_isDecTurn ht
  have ho := hoffer s rfl
  have hcmds : (takeTurn s).host.cmds = s.host.cmds := by
    rw [takeTurn_host_cmds, ho, afterCommand_of_isDecInstr hi]
  obtain ⟨d, reps, done, hlocal⟩ := exec_dec_local s hi
  exact ⟨_, _, (step_some ho).trans (hlocal _ rfl rfl), (step_some (hoffer s' hturn)).trans (hlocal _ h.cfg h.dec),
    ⟨h.cfg, rfl, congrArg (· ++ reps) h.reports⟩, ⟨rfl, rfl, rfl, hcmds⟩⟩

/-! ### The run -/

/-- Three states before the turns `ts`: `a` takes them all, `e` those of ENC, `d` those of DEC; `a` agrees with `e` on
ENC's side and with `d` on DEC's. -/
structure Interleaving (ts : List Turn) (a e d : State) : Prop where
  turns : ∀ t ∈ ts, isEncTurn t = true ∨ isDecTurn t = true
  fit : CmdsFit a
  enc : EncAlike a e
  dec : DecAlike a d
  sched : ∃ rest, a.host.sched = ts ++ rest
  encSched : ∃ rest, e.host.sched = ts.filter isEncTurn ++ rest
  decSched : ∃ rest, d.host.sched = ts.filter isDecTurn ++ rest

theorem currentTurn_of_sched {s : State} {t : Turn} {ts : List Turn} (h : s.host.sched = t :: ts) :
    currentTurn s = t := by
  simp [currentTurn, h]

theorem step_sched {s t : State} {turn : Turn} {ts : List Turn} (hstep : step s = .next t)
    (h : s.host.sched = turn :: ts) : t.host.sched = ts := by
  rw [step_host hstep, takeTurn_host_sched, h, List.tail_cons]

/-- A turn of ENC moves `a` and `e`. -/
theorem Interleaving.encTurn {t : Turn} {ts : List Turn} {a e d : State} (h : Interleaving (t :: ts) a e d)
    (ht : isEncTurn t = true) : ∃ a' e', step a = .next a' ∧ step e = .next e' ∧ Interleaving ts a' e' d := by
  obtain ⟨hturns, hfit, henc, hdec, ⟨rest, hsched⟩, ⟨restE, hschedE⟩, ⟨restD, hschedD⟩⟩ := h
  rw [List.filter_cons_of_pos ht] at hschedE
  rw [List.filter_cons_of_neg (not_isDecTurn_of_isEncTurn ht)] at hschedD
  have hturn := currentTurn_of_sched hsched
  obtain ⟨a', e', hstep, hstepE, halike, hkept⟩ :=
    encTurn_alike henc hfit (hturn ▸ ht) ((currentTurn_of_sched hschedE).trans hturn.symm)
  exact ⟨a', e', hstep, hstepE, fun t' ht' => hturns t' (List.mem_cons_of_mem _ ht'), hfit.step hstep, halike,
    ⟨hdec.cfg.trans hkept.cfg.symm, hdec.dec.trans hkept.dec.symm, hdec.reports.trans hkept.reports.symm⟩,
    ⟨rest, step_sched hstep hsched⟩, ⟨restE, step_sched hstepE hschedE⟩, ⟨restD, hschedD⟩⟩

/-- A turn of DEC moves `a` and `d`. -/
theorem Interleaving.decTurn {t : Turn} {ts : List Turn} {a e d : State} (h : Interleaving (t :: ts) a e d)
    (ht : isDecTurn t = true) : ∃ a' d', step a = .next a' ∧ step d = .next d' ∧ Interleaving ts a' e d' := by
  obtain ⟨hturns, hfit, henc, hdec, ⟨rest, hsched⟩, ⟨restE, hschedE⟩, ⟨restD, hschedD⟩⟩ := h
  rw [List.filter_cons_of_neg (not_isEncTurn_of_isDecTurn ht)] at hschedE
  rw [List.filter_cons_of_pos ht] at hschedD
  have hturn := currentTurn_of_sched hsched
  obtain ⟨a', d', hstep, hstepD, halike, hkept⟩ :=
    decTurn_alike hdec (hturn ▸ ht) ((currentTurn_of_sched hschedD).trans hturn.symm)
  exact ⟨a', d', hstep, hstepD, fun t' ht' => hturns t' (List.mem_cons_of_mem _ ht'), hfit.step hstep,
    ⟨henc.cfg.trans hkept.cfg.symm, henc.enc.trans hkept.enc.symm, henc.sink.trans hkept.sink.symm,
      henc.cmds.trans hkept.cmds.symm⟩,
    halike, ⟨rest, step_sched hstep hsched⟩, ⟨restE, hschedE⟩, ⟨restD, step_sched hstepD hschedD⟩⟩

theorem Interleaving.run (ts : List Turn) : ∀ {a e d : State}, Interleaving ts a e d → ∃ a' e' d',
    StepsTo ts.length a a' ∧ StepsTo (ts.filter isEncTurn).length e e' ∧ StepsTo (ts.filter isDecTurn).length d d' ∧
      EncAlike a' e' ∧ DecAlike a' d' := by
  induction ts with
  | nil => exact fun h => ⟨_, _, _, (StepsTo_zero _ _).mpr rfl, (StepsTo_zero _ _).mpr rfl, (StepsTo_zero _ _).mpr rfl,
      h.enc, h.dec⟩
  | cons t ts ih =>
    intro a e d h
    rcases h.turns t (List.mem_cons_self ..) with ht | ht
    · obtain ⟨u, v, hstep, hstepE, hrest⟩ := h.encTurn ht
      obtain ⟨a', e', d', hrun, hrunE, hrunD, halike⟩ := ih hrest
      rw [List.filter_cons_of_pos ht, List.filter_cons_of_neg (not_isDecTurn_of_isEncTurn ht)]
      exact ⟨a', e', d', StepsTo_cons hstep hrun, StepsTo_cons hstepE hrunE, hrunD, halike⟩
    · obtain ⟨u, v, hstep, hstepD, hrest⟩ := h.decTurn ht
      obtain ⟨a', e', d', hrun, hrunE, hrunD, halike⟩ := ih hrest
      rw [List.filter_cons_of_neg (not_isEncTurn_of_isDecTurn ht), List.filter_cons_of_pos ht]
      exact ⟨a', e', d', StepsTo_cons hstep hrun, hrunE, StepsTo_cons hstepD hrunD, halike⟩

/-- Settles O14: the three runs begin in states that agree, and every turn keeps the agreement. -/
theorem interleavingGivesEachUnitItsOwnRun : Obligations.InterleavingGivesEachUnitItsOwnRun := by
  intro s ts hturns hcmds
  have hfit : CmdsFit s := fun v hv => Nat.lt_of_le_of_lt (hcmds v hv) (maxValue_lt _)
  obtain ⟨a, e, d, hrun, hrunE, hrunD, henc, hdec⟩ := Interleaving.run ts (a := schedule ts s)
    (e := schedule (ts.filter isEncTurn) s) (d := schedule (ts.filter isDecTurn) s)
    ⟨hturns, hfit, ⟨rfl, rfl, rfl, rfl⟩, ⟨rfl, rfl, rfl⟩, ⟨_, rfl⟩, ⟨_, rfl⟩, ⟨_, rfl⟩⟩
  exact ⟨a, e, d, hrun, hrunE, hrunD, henc.enc.symm, henc.sink.symm, henc.cmds.symm, hdec.dec.symm,
    hdec.reports.symm⟩

end Sys2Proof.Machine
end

section
/-! PROOFS. The two functions: every canonical sequence is the closed form of its value (R64, R66, R91), so `encode` gives
that form; the closed form of `decode` (R111), its arithmetic (R119) and the round trip (R125, R71). -/

namespace Sys2Proof.Machine

open Sys2Proof

/-! ### The canonical length -/

theorem canonicalLength_zero : canonicalLength 0 = 1 := rfl

theorem canonicalLength_of_ne_zero {v : Nat} (hv : v ≠ 0) : canonicalLength v = Nat.log2 v / 7 + 1 := by
  rw [canonicalLength, bitLength, if_neg hv]
  omega

/-- `k(v)` groups hold the value and one fewer do not, unless it is the only one (R64); no other number is so. -/
theorem canonicalLength_eq_iff (v n : Nat) (hn : 1 ≤ n) :
    canonicalLength v = n ↔ v < 2 ^ (7 * n) ∧ (n = 1 ∨ 2 ^ (7 * (n - 1)) ≤ v) := by
  by_cases hv : v = 0
  · subst hv
    simp [canonicalLength_zero, eq_comm]
  · rw [canonicalLength_of_ne_zero hv, ← Nat.log2_lt hv, ← Nat.le_log2 hv]
    omega

theorem one_le_canonicalLength (v : Nat) : 1 ≤ canonicalLength v := Nat.le_max_left 1 _

theorem canonicalLength_bounds (v : Nat) :
    v < 2 ^ (7 * canonicalLength v) ∧ (canonicalLength v = 1 ∨ 2 ^ (7 * (canonicalLength v - 1)) ≤ v) :=
  (canonicalLength_eq_iff v _ (one_le_canonicalLength v)).mp rfl

/-! ### Canonical sequences -/

/-- The payload at index `j` is the digit of the value at the position counted from the other end (R66). -/
theorem payload_eq_digitOf {s : List Byte} {j : Nat} (hj : j < s.length) :
    (bytePayload s[j]).toNat = digitOf (seqValue s) (s.length - 1 - j) := by
  have hsplit : s = s.take j ++ s[j] :: s.drop (j + 1) := by
    rw [List.getElem_cons_drop, List.take_append_drop]
  have hrest := seqValue_lt (s.drop (j + 1))
  rw [List.length_drop] at hrest
  have hlen : s.length - (j + 1) = s.length - 1 - j := by omega
  have hvalue : seqValue s = (seqValue (s.take j) * 128 + (bytePayload s[j]).toNat) * 128 ^ (s.length - 1 - j) +
      seqValue (s.drop (j + 1)) := by
    conv_lhs => rw [hsplit]
    rw [seqValue_append, seqValue_cons, List.length_cons, List.length_drop, hlen]
    ring
  rw [hlen] at hrest
  rw [digitOf, hvalue, Nat.pow_mul, show (2 : Nat) ^ 7 = 128 from rfl, Nat.add_comm,
    Nat.add_mul_div_right _ _ (by positivity), Nat.div_eq_of_lt hrest, Nat.zero_add, Nat.mul_add_mod',
    Nat.mod_eq_of_lt (bytePayload_lt _)]

/-- In a well-formed sequence the flag is set on all but the last byte (R62). -/
theorem byteContinues_eq_of_wellFormedSeq {s : List Byte} (h : WellFormedSeq s) {j : Nat} (hj : j < s.length) :
    byteContinues s[j] = decide (j < s.length - 1) := by
  obtain ⟨init, last, rfl, hinit, hlast⟩ := h
  rw [List.length_append, List.length_singleton, Nat.add_sub_cancel]
  by_cases hlt : j < init.length
  · rw [List.getElem_append_left hlt, hinit _ (List.getElem_mem hlt), decide_eq_true hlt]
  · have hlastIdx : j = init.length := by simp at hj; omega
    subst hlastIdx
    simp [hlast]

/-- A canonical sequence has `k(v)` bytes: its first payload is not 0 unless it is the only one (R63, R64). -/
theorem length_of_canonicalSeq {s : List Byte} (h : CanonicalSeq s) : s.length = canonicalLength (seqValue s) := by
  obtain ⟨hwf, hfirst⟩ := h
  have hpos : 1 ≤ s.length := List.length_pos_of_ne_nil (wellFormedSeq_ne_nil hwf)
  have hpow (n : Nat) : 2 ^ (7 * n) = 128 ^ n := Nat.pow_mul 2 7 n
  refine ((canonicalLength_eq_iff _ _ hpos).mpr ⟨?_, ?_⟩).symm
  · rw [hpow]
    exact seqValue_lt s
  · refine or_iff_not_imp_left.mpr fun hone => ?_
    have hhead := hfirst.resolve_left hone
    cases s with
    | nil => cases hpos
    | cons b rest =>
      have hcont : byteContinues b = true := by
        have hflag := byteContinues_eq_of_wellFormedSeq hwf (j := 0) (by simp)
        rw [List.length_cons] at hone hflag
        simpa using hflag.trans (decide_eq_true (by omega))
      rw [hpow, List.length_cons, Nat.add_sub_cancel, pow_length_le_seqValue_cons_iff]
      intro hzero
      exact hhead (congrArg some (byte_ext hcont (congrArg BitVec.toNat hzero)))

/-- The canonical sequence of a value is its closed form (R66, R91). -/
theorem eq_canonicalSeq {s : List Byte} (h : CanonicalSeq s) : s = canonicalSeq (seqValue s) := by
  have hlen := length_of_canonicalSeq h
  obtain ⟨hwf, -⟩ := h
  refine List.ext_getElem (by simpa [canonicalSeq] using hlen) fun j hj _ => ?_
  have hbyte : s[j].toNat =
      (if j < s.length - 1 then 0x80 else 0x00) + digitOf (seqValue s) (s.length - 1 - j) := by
    rw [byte_split s[j], byteContinues_eq_of_wellFormedSeq hwf hj, payload_eq_digitOf hj]
    simp only [decide_eq_true_eq]
  simp only [canonicalSeq, List.getElem_map, List.getElem_range, canonicalByte, ← hlen, ← hbyte, BitVec.ofNat_toNat,
    BitVec.setWidth_eq]

theorem canonicalSeq_unique {s t : List Byte} (hs : CanonicalSeq s) (ht : CanonicalSeq t)
    (h : seqValue s = seqValue t) : s = t := by
  rw [eq_canonicalSeq hs, eq_canonicalSeq ht, h]

theorem opEncode_eq_canonicalSeq {w v : Nat} (h : v < 2 ^ w) : opEncode v w = canonicalSeq v := by
  rw [eq_canonicalSeq (canonicalSeq_opEncode h), seqValue_opEncode h]

/-- Settles O23: `encode` gives a canonical sequence that denotes the Value. -/
theorem encodeCallGivesClosedForm : Obligations.EncodeCallGivesClosedForm := by
  intro v w s hw hv
  rw [exec_encode hw hv, opEncode_eq_canonicalSeq hv]

/-- `encode` has at most `M` bytes (R99). -/
theorem length_opEncode_le {w v : Nat} (h : v < 2 ^ w) : (opEncode v w).length ≤ w / 7 + 1 := by
  obtain ⟨k, hk, hv, -, heq⟩ := opEncode_eq_started h
  obtain ⟨hlen, -⟩ := encodeFrom_started k v hv
  rw [heq, hlen]
  exact Nat.succ_le_succ hk

/-- Settles O24: the output is the canonical sequence of the Value, of length `k(v)`. -/
theorem encodeOutputProperties : Obligations.EncodeOutputProperties := by
  intro v w hw hv
  have hcanon := canonicalSeq_opEncode hv
  have hvalue := seqValue_opEncode hv
  have hlen : (opEncode v w).length = canonicalLength v := by rw [length_of_canonicalSeq hcanon, hvalue]
  obtain ⟨hupper, hlower⟩ := canonicalLength_bounds v
  exact ⟨hlen ▸ one_le_canonicalLength v, length_opEncode_le hv, hcanon,
    opEncode_eq_canonicalSeq (Nat.two_pow_pos w), hlen, hupper, hlower, hvalue⟩

/-! ### The closed form of `decode` -/

/-- R111 without a terminal byte. -/
theorem closedDecode_of_all_continue {s : List Byte} (w : Nat) (hne : s ≠ []) (hs : contPrefix s = s) :
    closedDecode s w = if lim w < seqValue s then .err .overflow else .err .unfinishedSequence := by
  have hpos : 1 ≤ s.length := List.length_pos_of_ne_nil hne
  simp [closedDecode, hs, hne, hpos]

/-- R111 with a first terminal byte `t`. -/
theorem closedDecode_of_term (w : Nat) {pre : List Byte} {t : Byte} (rest : List Byte)
    (hs : contPrefix (pre ++ t :: rest) = pre) :
    closedDecode (pre ++ t :: rest) w =
      if lim w < seqValue pre then .err .overflow
      else if rest = [] then .ok (seqValue (pre ++ [t])) else .err .extraData := by
  have hvalue : seqValue (pre ++ [t]) = 128 * seqValue pre + (bytePayload t).toNat := by
    rw [seqValue_append]
    simp [Nat.mul_comm]
  have hover : 1 ≤ pre.length ∧ lim w < seqValue pre ↔ lim w < seqValue pre := by
    cases pre with
    | nil => simp
    | cons b pre => simp
  cases rest with
  | nil => simp [closedDecode, hs, hover, hvalue]
  | cons b rest => simp [closedDecode, hs, hover]

theorem opDecode_eq_closedDecode (s : List Byte) (w : Nat) : opDecode s w = closedDecode s w := by
  obtain ⟨hpre, hs | ⟨t, rest, ht, hs⟩⟩ := contPrefix_split s
  · by_cases hne : s = []
    · rw [hne]; rfl
    · rw [closedDecode_of_all_continue w hne hs.symm, opDecode_prefix_only w hne (hs.symm ▸ hpre)]
  · rw [hs, closedDecode_of_term w rest (contPrefix_append_term rest hpre ht), opDecode_prefix_term w rest hpre ht]

/-- Settles O26, by the closed form of the loop. -/
theorem decodeCallGivesClosedForm : Obligations.DecodeCallGivesClosedForm := by
  intro bytes w s hw
  rw [exec_decode hw, opDecode_eq_closedDecode]

/-- Settles O32: a sequence that is well formed decodes by its value alone. -/
theorem overflowCheckIsExact : Obligations.OverflowCheckIsExact := by
  intro w s hw hwf
  have hpos := Nat.two_pow_pos w
  rw [opDecode_of_wellFormedSeq hw hwf]
  exact ⟨fun hle => if_pos (by omega), fun hlt => if_neg (by omega)⟩

/-! ### The Decoder's arithmetic -/

/-- Of a number that fits `m` bits, one of the bits from `n` on is set exactly when it reaches `2^n`. -/
theorem exists_testBit_iff {x m n : Nat} (hx : x < 2 ^ m) :
    (∃ k, n ≤ k ∧ k ≤ m - 1 ∧ x.testBit k = true) ↔ 2 ^ n ≤ x := by
  constructor
  · rintro ⟨k, hnk, -, hk⟩
    exact Nat.le_trans (Nat.pow_le_pow_right (by decide) hnk) (Nat.ge_two_pow_of_testBit hk)
  · intro hle
    obtain ⟨k, hnk, hk⟩ := Nat.exists_ge_and_testBit_of_ge_two_pow hle
    have hkm : k < m := (Nat.pow_lt_pow_iff_right (by decide)).mp (Nat.lt_of_le_of_lt (Nat.ge_two_pow_of_testBit hk) hx)
    exact ⟨k, hnk, Nat.le_sub_one_of_lt hkm, hk⟩

/-- A register keeps all of a number exactly when the number fits it. -/
theorem toWidth_eq_self_iff (w v : Nat) : toWidth w v = v ↔ v < 2 ^ w := Nat.mod_eq_iff_lt (Nat.two_pow_pos w).ne'

/-- Settles O31: R29 gives the sum its room, `LIM = 2^(W-7) - 1` the comparison, and `lim_lt_iff` the shift. -/
theorem decoderArithmeticIsExact : Obligations.DecoderArithmeticIsExact := by
  intro c d p hinv hst
  have hw := Config.seven_le_W c
  obtain ⟨hdvd, hroom⟩ := hinv.acc_has_room hw hst
  have hfits : addPayload d.acc p < 2 ^ c.W := Nat.lt_of_lt_of_le (Nat.add_lt_add_left p.isLt _) hroom
  have hpos := Nat.two_pow_pos (c.W - 7)
  have hover : overflows c.W (addPayload d.acc p) = true ↔ 2 ^ (c.W - 7) ≤ addPayload d.acc p := by
    rw [overflows_iff, lim_eq hw]
    omega
  have hgood : overflows c.W (addPayload d.acc p) = false ↔ addPayload d.acc p * 128 < 2 ^ c.W := by
    rw [← Bool.not_eq_true, overflows_iff, lim_lt_iff hw]
    omega
  refine ⟨rfl, add_digit_eq_or p hdvd, toWidth_of_lt hfits, hfits, ?_, ?_, ?_, fun h => ⟨shiftDigit_eq _, ?_⟩⟩
  · rw [hover]
    omega
  · rw [hover, exists_testBit_iff hfits]
  · rw [hgood, toWidth_eq_self_iff, shiftDigit_eq]
  · have hlt := hgood.mp h
    rw [two_pow_eq_mul_128 hw] at hlt ⊢
    rw [shiftDigit_eq]
    omega

/-! ### The round trip -/

/-- Settles O36: the two calls compute the two functions, and `decode` undoes `encode`. -/
theorem decodeOfEncodeIsIdentity : Obligations.DecodeOfEncodeIsIdentity := by
  intro v w s hw hv
  refine ⟨_, _, opEncode v w, exec_encode hw hv s, rfl, exec_decode hw _ _, ?_⟩
  rw [opDecode_opEncode hw hv]

theorem seqValue_padding (z : Nat) (s : List Byte) : seqValue (List.replicate z 0x80#8 ++ s) = seqValue s := by
  induction z with
  | zero => rfl
  | succ z ih =>
    have hpayload : (bytePayload 0x80#8).toNat = 0 := rfl
    rw [List.replicate_succ, List.cons_append, seqValue_cons, hpayload, Nat.zero_mul, Nat.zero_add, ih]

/-- Behind its leading `0x80` bytes a well-formed sequence is canonical (R63, R121). -/
theorem exists_padding {s : List Byte} (h : WellFormedSeq s) :
    ∃ z c, s = List.replicate z 0x80#8 ++ c ∧ CanonicalSeq c := by
  obtain ⟨init, last, rfl, hinit, hlast⟩ := h
  induction init with
  | nil => exact ⟨0, [last], rfl, ⟨[], last, rfl, hinit, hlast⟩, .inl rfl⟩
  | cons b init ih =>
    by_cases hb : b = 0x80#8
    · obtain ⟨z, c, hs, hc⟩ := ih fun x hx => hinit x (List.mem_cons_of_mem _ hx)
      refine ⟨z + 1, c, ?_, hc⟩
      rw [List.cons_append, hs, hb, List.replicate_succ, List.cons_append]
    · exact ⟨0, _, rfl, ⟨b :: init, last, rfl, hinit, hlast⟩, .inr fun hhead => hb (Option.some.inj hhead)⟩

/-- Settles O37: behind its padding the sequence is canonical with the value `v`, and there is one such; its length
gives the padding's. -/
theorem onlyPaddedEncodingsDecode : Obligations.OnlyPaddedEncodingsDecode := by
  intro w v s hw hok
  obtain ⟨hwf, hvalue, hfits⟩ := (opDecode_eq_ok_iff hw s).mp hok
  have hcanon := canonicalSeq_opEncode hfits
  have unique {c : List Byte} (hc : CanonicalSeq c) (hcv : seqValue c = v) : c = opEncode v w :=
    canonicalSeq_unique hc hcanon (hcv.trans (seqValue_opEncode hfits).symm)
  refine ⟨Nat.le_sub_one_of_lt hfits, ?_, fun h => h ▸ hcanon, fun h => unique h hvalue⟩
  obtain ⟨z, c, rfl, hc⟩ := exists_padding hwf
  rw [seqValue_padding] at hvalue
  obtain rfl := unique hc hvalue
  refine ⟨z, rfl, fun z' h => ?_⟩
  simpa using (congrArg List.length h).symm

end Sys2Proof.Machine
end

section
/-! PROOFS. The words on the ports (R61, R67, R68, R160): the decoder and the encoder agree. What a step runs, and what it
takes from the host's side (R160, R163, R164). -/

namespace Sys2Proof.Machine

open Sys2Proof

/-! ### Words written and read -/

/-- A token is its bit 8 and its byte (R67). -/
theorem token_split (t : Token) : t = BitVec.ofBool (tokenIsEnd t) ++ tokenByte t := by
  revert t; decide

theorem tokenIsEnd_append_one (low : Byte) : tokenIsEnd (1#1 ++ low) = true := by
  revert low; decide

theorem tokenIsEnd_iff (t : Token) : tokenIsEnd t = true ↔ ∃ low : Byte, t = 1#1 ++ low := by
  constructor
  · intro h
    have hsplit := token_split t
    rw [h] at hsplit
    exact ⟨tokenByte t, hsplit⟩
  · rintro ⟨low, rfl⟩
    exact tokenIsEnd_append_one low

/-- A token with bit 8 clear carries a byte (R67). -/
theorem eq_byteToken {t : Token} (h : tokenIsEnd t = false) : t = byteToken (tokenByte t) := by
  have hsplit := token_split t
  rw [h] at hsplit
  exact hsplit

theorem byteToken_of_continues {b : Byte} (h : byteContinues b = true) : byteToken b = 0b01#2 ++ bytePayload b := by
  revert b; decide

theorem byteToken_of_not_continues {b : Byte} (h : byteContinues b = false) :
    byteToken b = 0b00#2 ++ bytePayload b := by
  revert b; decide

theorem byte_of_continues {b : Byte} (h : byteContinues b = true) : b = 1#1 ++ bytePayload b := by
  revert b; decide

theorem byte_of_not_continues {b : Byte} (h : byteContinues b = false) : b = 0#1 ++ bytePayload b := by
  revert b; decide

theorem decodeToken_eq_decEnd_iff (t : Token) : decodeToken t = .decEnd ↔ tokenIsEnd t = true := by
  unfold decodeToken
  split
  · next h => exact iff_of_true rfl h
  · next h => split <;> exact iff_of_false (by simp) h

/-- What the encoder writes, the decoder reads. -/
theorem decodeWord_of_encodeWord {i : Instr} {p : PortWord} (h : encodeWord i = some p) : decodeWord p = .ok i := by
  cases i with
  | maxBytes w | encode v w | decode bytes w | encDigit | encTerm => cases h
  | encStart v | decEnd | reset => cases h; rfl
  | decCont q | decTerm q | cont q | term q =>
    cases h
    revert q
    decide

/-- The rows without a pattern are those of width 0 (R72). -/
theorem encodeWord_eq_none_iff (i : Instr) : encodeWord i = none ↔ i.row.width = 0 := by
  cases i <;> simp [encodeWord, Instr.row]

/-- What the decoder reads from a token, the encoder writes as that token, but for `END`. -/
theorem encodeWord_decodeToken {t : Token} (h : decodeToken t ≠ .decEnd) :
    encodeWord (decodeToken t) = some (.token t) := by
  have hend : tokenIsEnd t = false := eq_false_of_ne_true (mt (decodeToken_eq_decEnd_iff t).mpr h)
  obtain ⟨b, rfl⟩ : ∃ b, t = byteToken b := ⟨_, eq_byteToken hend⟩
  cases hb : byteContinues b with
  | true => rw [decodeToken_of_continues hb, encodeWord, byteToken_of_continues hb]
  | false => rw [decodeToken_of_not_continues hb, encodeWord, byteToken_of_not_continues hb]

theorem encodeWord_decodeByte (b : Byte) : encodeWord (decodeByte b) = some (.wire b) := by
  cases hb : byteContinues b with
  | true => rw [decodeByte_of_continues hb, encodeWord, ← byte_of_continues hb]
  | false => rw [decodeByte_of_not_continues hb, encodeWord, ← byte_of_not_continues hb]

theorem encodeWord_of_decodeWord {i : Instr} {p : PortWord} (h : decodeWord p = .ok i) (hi : i ≠ .decEnd) :
    encodeWord i = some p := by
  cases p with
  | rst pin =>
    by_cases hpin : pin = 1#1
    · subst hpin; cases h; rfl
    · cases (if_neg hpin).symm.trans h
  | command eStart v =>
    by_cases hs : eStart = 1#1
    · subst hs; cases h; rfl
    · cases (if_neg hs).symm.trans h
  | token t => cases h; exact encodeWord_decodeToken hi
  | wire b => cases h; exact encodeWord_decodeByte b

/-- The words of `END` are the tokens with bit 8 set (R67). -/
theorem decodeWord_eq_decEnd_iff (p : PortWord) : decodeWord p = .ok .decEnd ↔ ∃ low : Byte, p = .token (1#1 ++ low) := by
  cases p with
  | rst pin => by_cases hpin : pin = 1#1 <;> simp [decodeWord, hpin]
  | command eStart v => by_cases hs : eStart = 1#1 <;> simp [decodeWord, hs]
  | token t => simpa [decodeWord] using (decodeToken_eq_decEnd_iff t).trans (tokenIsEnd_iff t)
  | wire b => cases hb : byteContinues b <;> simp [decodeWord, decodeByte, hb]

/-- Settles O9, one lemma for each clause. -/
theorem decodeEncodeAgree : Obligations.DecodeEncodeAgree := fun _ i _ =>
  ⟨fun _ => decodeWord_of_encodeWord, encodeWord_eq_none_iff i, fun _ => encodeWord_of_decodeWord,
    decodeWord_eq_decEnd_iff⟩

/-- Settles O10, by running the decoder on the nine words. -/
theorem writtenWordsDecode : Obligations.WrittenWordsDecode := by
  unfold Obligations.WrittenWordsDecode
  decide

/-! ### Wire bytes -/

/-- Settles O30: a wire byte's operation is its token's, and the token's next states are those of R112 and R113. -/
theorem wireBytesAreConsumedAsTokens : Obligations.WireBytesAreConsumedAsTokens := by
  intro p s
  have hw := Config.seven_le_W s.cfg
  have both {i j : Instr} (hi : isDecInstr i = true) (hij : exec i s = exec j s) :
      ∃ t, exec i s = .next t ∧ exec j s = .next t := by
    obtain ⟨_, _, _, h⟩ := exec_dec_local s hi
    exact ⟨_, h s rfl rfl, hij.symm.trans (h s rfl rfl)⟩
  refine ⟨fun hst hle => ?_, fun hinv hst => ?_, both rfl rfl, both rfl rfl, fun b ts => ?_⟩
  · rw [← lim_eq hw] at hle
    exact exec_decCont_appends hst hle
  · obtain ⟨-, hroom⟩ := hinv.acc_has_room hw hst
    exact exec_decTerm_closes hst (Nat.lt_of_lt_of_le (Nat.add_lt_add_left p.isLt _) hroom)
  · exact (step_wire b (schedule ts s)).trans
      ((exec_decodeByte b _).trans (step_token (byteToken b) (schedule ts s)).symm)

/-! ### The step -/

theorem offered_of_presented {s : State} {p : PortWord} (h : presented s = some p) : offered s = readPort p := by
  simp [offered, h]

theorem readPort_ok {p : PortWord} {i : Instr} (h : decodeWord p = .ok i) : readPort p = some i := by
  simp [readPort, h]

theorem readPort_error {p : PortWord} {e : DecodeError} (h : decodeWord p = .error e) : readPort p = none := by
  simp [readPort, h]

/-- Where nothing is offered the step takes the turn and lowers the strobes (R95, R154). -/
theorem step_of_nothing_offered {s : State} (h : offered s = none) :
    step s = .next { takeTurn s with seen := silent s.seen } := step_none h

/-- An accepted `ENC.START` leaves the list of pending commands (R92). -/
theorem takeTurn_of_start {s : State} {v : Nat} (hb : s.enc.busy = false) (ho : offered s = some (.encStart v)) :
    takeTurn s = { s with host := { sched := s.host.sched.tail, cmds := s.host.cmds.tail } } := by
  simp [takeTurn, ho, afterCommand, hb]

/-- No other step changes that list (R164). -/
theorem takeTurn_of_no_start {s : State} (h : ¬ (s.enc.busy = false ∧ ∃ v, offered s = some (.encStart v))) :
    takeTurn s = { s with host := { sched := s.host.sched.tail, cmds := s.host.cmds } } := by
  have hcmds : afterCommand (offered s) s = s.host.cmds := by
    unfold afterCommand
    split
    · next v ho =>
      have hb : s.enc.busy = true := by
        by_contra hb
        exact h ⟨eq_false_of_ne_true hb, v, ho⟩
      exact if_pos hb
    · rfl
  rw [takeTurn, hcmds]

/-- Settles O11: `step` runs what is offered, and the offer is read at the port, at the call or at ENC. -/
theorem stepRunsOfferedOperation : Obligations.StepRunsOfferedOperation := by
  intro s
  refine ⟨fun p i hp hi => ?_, fun p e hp he => ?_, fun hp c hc => ?_, fun hp henc => ?_, fun hp hidle => ?_, ?_,
    takeTurn_of_no_start⟩
  · exact step_some ((offered_of_presented hp).trans (readPort_ok hi))
  · exact step_of_nothing_offered ((offered_of_presented hp).trans (readPort_error he))
  · exact step_some (by simp [offered, hp, hc])
  · have ho : offered s = internalStep s.enc := by simp [offered, hp, henc]
    cases hi : internalStep s.enc with
    | some i => exact step_some (ho.trans hi)
    | none => exact step_of_nothing_offered (ho.trans hi)
  · exact step_of_nothing_offered (by simp [offered, hp, hidle])
  · rintro hb ⟨v, ho⟩
    exact takeTurn_of_start hb ho

/-- Settles O44: `afterReset` written out, its free values cut to their registers; and the pin pre-empts the offer. -/
theorem resetGivesTheResetValues : Obligations.ResetGivesTheResetValues := by
  refine ⟨rfl, fun s => ?_, fun s o ts hs => ?_⟩
  · exact ⟨toWidth s.cfg.W (Config.freeVal s.free), toWidth (idxBits s.cfg.W) (Config.freeIdx s.free),
      Config.freeStarted s.free, Nat.mod_lt _ (Nat.two_pow_pos _), Nat.mod_lt _ (Nat.two_pow_pos _), exec_reset s⟩
  · rw [eq_withTurn_of_sched hs]
    exact step_reset o _

/-! ### The end of a run -/

/-- With nothing scheduled a busy ENC takes its own step (R163). -/
theorem offered_of_busy {s : State} (hb : s.enc.busy = true) (hs : s.host.sched = []) :
    offered s = internalStep s.enc := by
  simp [offered, presented, currentTurn, hs, hb]

/-- With nothing scheduled and nothing pending an idle ENC has none (R163). -/
theorem offered_of_rest {s : State} (hb : s.enc.busy = false) (hs : s.host = ⟨[], []⟩) : offered s = none := by
  simp [offered, presented, currentTurn, hs, hb, commandPort, readPort, decodeWord]

/-- From an empty schedule no turn is dropped, and where no command is accepted nothing is taken. -/
theorem takeTurn_of_sched_nil {s : State} (hs : s.host.sched = [])
    (h : ¬ (s.enc.busy = false ∧ ∃ v, offered s = some (.encStart v))) : takeTurn s = s := by
  rw [takeTurn_of_no_start h, hs, List.tail_nil, ← hs]

/-- Settles O49: at rest nothing is offered; a busy ENC goes down a position, or ends at position 0. -/
theorem quiescentBlockRests : Obligations.QuiescentBlockRests := by
  constructor
  · rintro s ⟨hb, -⟩ hs
    have ho := offered_of_rest hb hs
    rw [step_of_nothing_offered ho, takeTurn_of_sched_nil (by rw [hs]) (by simp [ho])]
  · intro s hb hs
    have ho := (offered_of_busy hb hs).trans (internalStep_busy hb)
    have htake : takeTurn s = s := takeTurn_of_sched_nil hs (by simp [hb])
    by_cases hi : s.enc.idx = 0
    · rw [if_pos hi] at ho
      have hexec := exec_encTerm_emits hb hi
      exact ⟨_, _, .inr rfl, ho, ((step_some ho).trans (by rw [htake])).trans hexec, hexec, fun h => absurd hi h,
        fun _ => rfl⟩
    · rw [if_neg hi] at ho
      obtain ⟨t, hexec, htb, hti⟩ := exec_encDigit_descends hb hi
      exact ⟨_, t, .inl rfl, ho, ((step_some ho).trans (by rw [htake])).trans hexec, hexec, fun _ => ⟨hti, htb⟩,
        fun h => absurd h hi⟩

end Sys2Proof.Machine
end
